-- ==== Sys2Proof/Word.lean ====
section
/-! DEFINITION. The widths of the machine's words (00_scope.md section 4, 30_encoding.md R60). -/

namespace Sys2Proof

/-- A byte of the record image or of the program stream; the width of `jt` and `jf`. -/
abbrev Byte := BitVec 8

/-- The 16-bit opcode field, and the 16-bit errno. -/
abbrev Half := BitVec 16

/-- The accumulator, the operand `k`, an action code (10_state.md R11, 30_encoding.md R60). -/
abbrev Word := BitVec 32

/-- A whole instruction record as the engine receives it (30_encoding.md R60). -/
abbrev Insn := BitVec 64

end Sys2Proof
end

