-- ==== Sys2Proof/Machine/Flags.lean ====
section
/-! DEFINITION. The engine has no flags (10_state.md R15): a compare computes its condition and uses it in the same step.
These are the three conditions, on unsigned 32-bit values with the constant on the left (42_jump.md R97 to R100,
90_conflicts.md C3, log 7). -/

namespace Sys2Proof.Machine

/-- JEQ: `A == k` (42_jump.md R97). -/
def condEq (acc k : Word) : Bool := decide (acc = k)

/-- JGT: `k >u A`, the constant on the left (42_jump.md R98). -/
def condGt (acc k : Word) : Bool := decide (acc.toNat < k.toNat)

/-- JGE: `k >=u A`, the constant on the left (42_jump.md R99). -/
def condGe (acc k : Word) : Bool := decide (acc.toNat ≤ k.toNat)

end Sys2Proof.Machine
end

