-- ==== Sys2Proof/Config.lean ====
section
/-! DEFINITION. What is fixed for a machine: the bounds the source prints and the OPEN parameters the model takes as an
argument (00_scope.md section 4). The parameters' default values stand in Sys2Proof/Decode.lean (`defaultConfig`).
The spec leaves no value to a run-time draw (93_implementation_defined.md Part 1), so there is no free value here. -/

namespace Sys2Proof

/-- `INSN_BYTE_ORDER`: the byte order of the two multi-byte fields of a record (20_memory.md R38, 30_encoding.md R61). -/
inductive ByteOrder where
  | little
  | big
deriving DecidableEq, Repr

/-- The architecture tag `ARCH` (10_state.md R16): `bits32` is code 0, `bits64` is code 1 (log 5). -/
inductive Arch where
  | bits32
  | bits64
deriving DecidableEq, Repr

/-- The parameters with status OPEN in 00_scope.md section 4. -/
structure Config where
  /-- `IP_BITS`, the width of `ip` and `pos`, D1. -/
  ipBits : Nat
  /-- `INSN_BYTE_ORDER`, D2. -/
  byteOrder : ByteOrder
  /-- `OPC_LDABS`, D3. -/
  opcLdabs : Half
  /-- `OPC_JA`, D3. -/
  opcJa : Half
  /-- `OPC_JEQ`, D3. -/
  opcJeq : Half
  /-- `OPC_JGT`, D3. -/
  opcJgt : Half
  /-- `OPC_JGE`, D3. -/
  opcJge : Half
  /-- `OPC_RET`, D3. -/
  opcRet : Half
  /-- `MAX_OFF_32`, D4. -/
  maxOff32 : Nat
  /-- `MAX_OFF_64`, D4. -/
  maxOff64 : Nat
  /-- `EXIT_USAGE`, D16. -/
  exitUsage : Nat
  /-- `EXIT_FAULT`, D16. -/
  exitFault : Nat
  /-- `EXIT_ERROR`, D16. -/
  exitError : Nat
deriving DecidableEq, Repr

/-- The six opcode values, in the order of the opcode map (30_encoding.md R66). -/
def Config.opcodes (c : Config) : List Half :=
  [c.opcLdabs, c.opcJa, c.opcJeq, c.opcJgt, c.opcJge, c.opcRet]

/-- What the spec requires of any choice of the parameters: `IP_BITS` is at least 13, so that 4096 fits
(92_eei_decisions.md D1), the six opcode values are pairwise different (30_encoding.md R66), the two maxima differ
(20_memory.md R36) and both are positive (41_load.md R90). -/
def Config.wf (c : Config) : Bool :=
  decide (13 ≤ c.ipBits) && decide c.opcodes.Nodup && decide (c.maxOff32 ≠ c.maxOff64) && decide (0 < c.maxOff32) && decide (0 < c.maxOff64)

/-- `PROG_MAX`, printed by the source (00_scope.md section 4, 20_memory.md R33). -/
def progMax : Nat := 4096

/-- `DEFAULT_ARCH`, printed by the source (00_scope.md section 4, 20_memory.md R50). -/
def defaultArch : Arch := .bits32

end Sys2Proof
end

