-- ==== Sys2Proof/Syntax.lean ====
section
/-! DEFINITION. The instructions: one constructor per row of spec/opcode_table.json. Every instruction has the one
format of 30_encoding.md R60, so every constructor carries the record's fields, also those its instruction ignores
(30_encoding.md R67): no bit of a record is lost in decoding. -/

namespace Sys2Proof

/-- An instruction record, by what its opcode selects (30_encoding.md R63, R66). -/
inductive Instr where
  /-- "Load absolute, word-class", 41_load.md R90; `jt` and `jf` are ignored. -/
  | ldabs (jt jf : Byte) (k : Word)
  /-- "Unconditional jump", 42_jump.md R96; `jt` and `jf` are ignored. -/
  | ja (jt jf : Byte) (k : Word)
  /-- "Jump-if-equal-constant", 42_jump.md R97. -/
  | jeq (jt jf : Byte) (k : Word)
  /-- "Jump-if-greater-than-constant", 42_jump.md R98. -/
  | jgt (jt jf : Byte) (k : Word)
  /-- "Jump-if-greater-or-equal-constant", 42_jump.md R99. -/
  | jge (jt jf : Byte) (k : Word)
  /-- "Return constant", 43_return_and_action.md R105; `jt` and `jf` are ignored. -/
  | ret (jt jf : Byte) (k : Word)
  /-- "Any other opcode", 44_unsupported.md R120; nothing but `opc` is looked at. -/
  | unsupported (opc : Half) (jt jf : Byte) (k : Word)
deriving DecidableEq, Repr

/-- The mnemonic of an instruction in spec/opcode_table.json. -/
def Instr.mnemonic : Instr → String
  | .ldabs _ _ _ => "LDABS"
  | .ja _ _ _ => "JA"
  | .jeq _ _ _ => "JEQ"
  | .jgt _ _ _ => "JGT"
  | .jge _ _ _ => "JGE"
  | .ret _ _ _ => "RET"
  | .unsupported _ _ _ _ => "UNSUPPORTED"

end Sys2Proof
end

