-- ==== Sys2Proof/WellFormed.lean ====
section
/-! DEFINITION. Which instruction terms stand for a record, for given opcode parameters. -/

namespace Sys2Proof

/-- The one check: the unsupported arm is the default arm (44_unsupported.md R121), so its opcode is none of the six.
Every value of every other field is a legal field value (30_encoding.md R64, R65, R67). -/
def Instr.wf (c : Config) : Instr → Bool
  | .ldabs _ _ _ => true
  | .ja _ _ _ => true
  | .jeq _ _ _ => true
  | .jgt _ _ _ => true
  | .jge _ _ _ => true
  | .ret _ _ _ => true
  | .unsupported opc _ _ _ => decide (opc ∉ c.opcodes)

end Sys2Proof
end

