-- ==== Sys2Proof/Decode.lean ====
section
/-! DEFINITION. From bytes to an instruction and back (30_encoding.md), and the default values of the OPEN parameters. -/

namespace Sys2Proof

/-- The defaults of the OPEN parameters (00_scope.md section 4; D1, D2, D3, D4, D16). The opcode numbers and the exit codes
are marked "from general knowledge, not in source" by the spec itself (UNVERIFIED, logs 2 and 27), the others are the spec's decisions (logs 1, 3 and 4). They stand in
this file so that they can be mended. -/
def defaultConfig : Config where
  ipBits := 32
  byteOrder := .little
  opcLdabs := 0x0020
  opcJa := 0x0005
  opcJeq := 0x0015
  opcJgt := 0x0025
  opcJge := 0x0035
  opcRet := 0x0006
  maxOff32 := 28
  maxOff64 := 56
  exitUsage := 22
  exitFault := 14
  exitError := 8

/-! ## The fields of a record (30_encoding.md R60) -/

/-- `I.opc` = `I[15:0]`. -/
def opcOf (w : Insn) : Half := w.extractLsb' 0 16

/-- `I.jt` = `I[23:16]`. -/
def jtOf (w : Insn) : Byte := w.extractLsb' 16 8

/-- `I.jf` = `I[31:24]`. -/
def jfOf (w : Insn) : Byte := w.extractLsb' 24 8

/-- `I.k` = `I[63:32]`. -/
def kOf (w : Insn) : Word := w.extractLsb' 32 32

/-- The record with the four given fields, each at its place. -/
def mkRecord (opc : Half) (jt jf : Byte) (k : Word) : Insn := k ++ jf ++ jt ++ opc

/-! ## Decoding a record -/

/-- The decoder: the whole 16-bit opcode is compared with six constants, in the order of the opcode map, and any other
value is the default arm (30_encoding.md R63, R66; 44_unsupported.md R121). Total on all 2^64 records. -/
def decodeWord (c : Config) (w : Insn) : Instr :=
  if opcOf w = c.opcLdabs then .ldabs (jtOf w) (jfOf w) (kOf w)
  else if opcOf w = c.opcJa then .ja (jtOf w) (jfOf w) (kOf w)
  else if opcOf w = c.opcJeq then .jeq (jtOf w) (jfOf w) (kOf w)
  else if opcOf w = c.opcJgt then .jgt (jtOf w) (jfOf w) (kOf w)
  else if opcOf w = c.opcJge then .jge (jtOf w) (jfOf w) (kOf w)
  else if opcOf w = c.opcRet then .ret (jtOf w) (jfOf w) (kOf w)
  else .unsupported (opcOf w) (jtOf w) (jfOf w) (kOf w)

/-! ## Between the byte stream and the record (20_memory.md R38, 30_encoding.md R61) -/

/-- The record assembled from its eight bytes in stream order: the field order is the same in both byte orders, only
the bytes inside `opc` and `k` swap. -/
def assembleRecord (o : ByteOrder) (b0 b1 b2 b3 b4 b5 b6 b7 : Byte) : Insn :=
  match o with
  | .little => mkRecord (b1 ++ b0) b2 b3 (b7 ++ b6 ++ b5 ++ b4)
  | .big => mkRecord (b0 ++ b1) b2 b3 (b4 ++ b5 ++ b6 ++ b7)

/-- The eight bytes of a record in stream order. -/
def recordBytes (o : ByteOrder) (w : Insn) : List Byte :=
  match o with
  | .little =>
    [w.extractLsb' 0 8, w.extractLsb' 8 8, jtOf w, jfOf w,
      w.extractLsb' 32 8, w.extractLsb' 40 8, w.extractLsb' 48 8, w.extractLsb' 56 8]
  | .big =>
    [w.extractLsb' 8 8, w.extractLsb' 0 8, jtOf w, jfOf w,
      w.extractLsb' 56 8, w.extractLsb' 48 8, w.extractLsb' 40 8, w.extractLsb' 32 8]

/-- Why bytes are no instruction. Every whole record is one (30_encoding.md R63), so only a record that ends early is
rejected ("a final partial record", 20_memory.md R45). -/
inductive DecodeError where
  /-- Fewer than eight bytes are left. -/
  | partialRecord
deriving DecidableEq, Repr

/-- The instruction at the front of a byte stream, with the rest of the stream. -/
def decodeBytes (c : Config) : List Byte → Except DecodeError (Instr × List Byte)
  | b0 :: b1 :: b2 :: b3 :: b4 :: b5 :: b6 :: b7 :: rest =>
    .ok (decodeWord c (assembleRecord c.byteOrder b0 b1 b2 b3 b4 b5 b6 b7), rest)
  | _ => .error .partialRecord

/-! ## Encoding (30_encoding.md R60, R66) -/

/-- The opcode of an instruction. -/
def Instr.opcode (c : Config) : Instr → Half
  | .ldabs _ _ _ => c.opcLdabs
  | .ja _ _ _ => c.opcJa
  | .jeq _ _ _ => c.opcJeq
  | .jgt _ _ _ => c.opcJgt
  | .jge _ _ _ => c.opcJge
  | .ret _ _ _ => c.opcRet
  | .unsupported opc _ _ _ => opc

/-- The `jt` field of an instruction. -/
def Instr.jtField : Instr → Byte
  | .ldabs jt _ _ | .ja jt _ _ | .jeq jt _ _ | .jgt jt _ _ | .jge jt _ _ | .ret jt _ _ => jt
  | .unsupported _ jt _ _ => jt

/-- The `jf` field of an instruction. -/
def Instr.jfField : Instr → Byte
  | .ldabs _ jf _ | .ja _ jf _ | .jeq _ jf _ | .jgt _ jf _ | .jge _ jf _ | .ret _ jf _ => jf
  | .unsupported _ _ jf _ => jf

/-- The `k` field of an instruction. -/
def Instr.kField : Instr → Word
  | .ldabs _ _ k | .ja _ _ k | .jeq _ _ k | .jgt _ _ k | .jge _ _ k | .ret _ _ k => k
  | .unsupported _ _ _ k => k

/-- The record of an instruction. -/
def encode (c : Config) (i : Instr) : Insn := mkRecord (i.opcode c) i.jtField i.jfField i.kField

/-- The stream bytes of an instruction. -/
def encodeBytes (c : Config) (i : Instr) : List Byte := recordBytes c.byteOrder (encode c i)

/-! ## The host's window on the decoder -/

/-- The instruction the decoder reads from the record whose bits are `w`, laid out as stream bytes under the default
parameters; bits above `nbits` are 0. -/
def decodeTableWord (nbits w : Nat) : Option Instr :=
  match decodeBytes defaultConfig (recordBytes defaultConfig.byteOrder (BitVec.ofNat 64 (w % 2 ^ nbits))) with
  | .ok (i, []) => some i
  | _ => none

end Sys2Proof
end

