-- ==== Sys2Proof/Machine/State.lean ====
section
/-! DEFINITION. The state of the engine (10_state.md) as plain data, the state after reset, and the reasons a step of
the model can stop. The engine's own abnormal ends are outcomes held in the state, not stops (60_exceptions.md R131). -/

namespace Sys2Proof.Machine

/-- A byte-addressed memory as (address, byte) cells in one canonical form: addresses strictly rising and no cell equal
to 0, which is what an unlisted address reads as (logs 15, 16). `Memory.wf` in Ops.lean says so. -/
abbrev Memory := List Host.Cell

/-- The run phase (10_state.md R17). -/
inductive Phase where
  | run
  | halt
deriving DecidableEq, Repr

/-- The four dispositions of an action code (10_state.md R17, 90_conflicts.md C4). -/
inductive Disposition where
  | kill
  | trap
  | errnoReturn (code : Half)
  | allow
deriving DecidableEq, Repr

/-- The causes of a ProgramError (10_state.md R17). -/
inductive ProgCause where
  | outOfRange
  | undefinedAction
deriving DecidableEq, Repr

/-- The one cause a Fault of the engine has (10_state.md R17, 60_exceptions.md R130). -/
inductive FaultCause where
  | notImplemented
deriving DecidableEq, Repr

/-- The outcome of a run, `Outcome` of 10_state.md R17. -/
inductive RunOutcome where
  | ok (action : Word) (disp : Disposition)
  | programError (cause : ProgCause) (pos : Nat)
  | fault (cause : FaultCause)
deriving DecidableEq, Repr

/-- The status outputs that are storage (10_state.md R18); the output `POS` is a read of `pos`. -/
structure Outputs where
  /-- `STATUS`: 0 RUNNING, 1 OK, 2 FAULT, 3 PROGRAM_ERROR. -/
  status : BitVec 2
  /-- `CAUSE`: 0 NONE, 1 OUT_OF_RANGE, 2 UNDEFINED_ACTION, 3 NOT_IMPLEMENTED. -/
  cause : BitVec 3
  /-- `ACTION`: the `k` of the Return that ended the run. -/
  action : Word
  /-- `DISP`: 0 NONE, 1 KILL, 2 TRAP, 3 ERRNO, 4 ALLOW. -/
  disp : BitVec 3
  /-- `ERRNO`: `ACTION[15:0]`. -/
  errno : Half
deriving DecidableEq, Repr

/-- The inputs of a run (10_state.md R16), constant while it lasts. The spec makes them parameters of the step relation;
they stand in the state because `exec` and `step` take nothing else (log 14). -/
structure Inputs where
  /-- `ARCH`. -/
  arch : Arch
  /-- `PROG_LEN`, a 13-bit input (10_state.md R18). -/
  progLen : BitVec 13
  /-- `PROG`: instruction `i` is the eight stream bytes at `8*i .. 8*i+7` (20_memory.md R44, log 15). -/
  prog : Memory
  /-- `REC`: the record image by byte offset (20_memory.md R34, log 16). -/
  record : Memory
deriving DecidableEq, Repr

/-- Everything the spec gives the engine (10_state.md R11 to R18), its inputs and its OPEN parameters. -/
structure State where
  /-- `A` (R11). -/
  acc : Word
  /-- `ip` (R12), an unsigned register of `IP_BITS` bits. The width is a parameter (`Config.ipBits`), so `ip` and `pos` are
  held as the numbers they are, and every write brings them below `2^IP_BITS` (DESIGN CHOICE, log 1). -/
  ip : Nat
  /-- `pos` (R13), `IP_BITS` bits, held as `ip` is (log 1). -/
  pos : Nat
  /-- `M`, inert (R14, log 6). -/
  scratch : Vector Word 16
  /-- The run phase (R17). -/
  phase : Phase
  /-- The outcome, once there is one (R17, 40_execution_cycle.md R88). -/
  outcome : Option RunOutcome
  /-- The status outputs (R18). -/
  out : Outputs
  /-- The `start` input (70_reset_and_hazards.md R150, log 11). -/
  start : Bool
  /-- The run's inputs (R16). -/
  inputs : Inputs
  /-- The OPEN parameters of this machine (00_scope.md section 4). -/
  cfg : Config
deriving DecidableEq, Repr

/-- The reasons a step stops. -/
inductive Fault where
  /-- Raised by `step` in phase HALT with `start` not asserted: "In phase HALT the engine has no step" (R17). Safe. -/
  | halted
deriving DecidableEq, Repr

/-- The reasons a step is refused. -/
inductive Refusal where
  /-- Raised by an arm of `exec` whose instruction has no meaning yet; no arm raises it now. Safe. -/
  | notModelled (mnemonic : String)
  /-- Raised by `step` when `PROG_LEN` is above 4096: "a model refuses such a configuration" (20_memory.md R33). Safe. -/
  | progLenAboveMax
deriving DecidableEq, Repr

/-- The status outputs after reset (10_state.md R20). -/
def Outputs.reset : Outputs where
  status := 0
  cause := 0
  action := 0
  disp := 0
  errno := 0

/-- The inputs with nothing loaded: the empty program, the default tag and the all-zero record the context builder makes
when nothing is specified (20_memory.md R50). DESIGN CHOICE, log 14: reset does not touch the inputs. -/
def Inputs.empty : Inputs where
  arch := defaultArch
  progLen := 0
  prog := []
  record := []

/-- The machine right after reset (10_state.md R20, 70_reset_and_hazards.md R151). -/
def State.reset : State where
  acc := 0
  ip := 0
  pos := 0
  scratch := Vector.replicate 16 0
  phase := .run
  outcome := none
  out := Outputs.reset
  start := false
  inputs := Inputs.empty
  cfg := defaultConfig

end Sys2Proof.Machine
end

