-- ==== Sys2Proof/Machine/Ops.lean ====
section
/-! DEFINITION. The named operations on memory, registers and the run: reading and writing memory, the fetch, the
advance, ending a run with an outcome, and starting one. -/

namespace Sys2Proof.Machine

/-! ## Memory -/

/-- The byte at an address; an unlisted address reads as 0 (logs 15, 16). -/
def Memory.read : Memory → Nat → Byte
  | [], _ => 0#8
  | (x, v) :: rest, a => if x = a then v else Memory.read rest a

/-- Put a cell into a canonical list; a 0 is stored by removing the cell. -/
def Memory.write : Memory → Nat → Byte → Memory
  | [], a, b => if b = 0#8 then [] else [(a, b)]
  | (x, v) :: rest, a, b =>
    if a < x then (if b = 0#8 then (x, v) :: rest else (a, b) :: (x, v) :: rest)
    else if a = x then (if b = 0#8 then rest else (x, b) :: rest)
    else (x, v) :: Memory.write rest a b

/-- Put consecutive bytes from an address on. -/
def Memory.writeBytes : Memory → Nat → List Byte → Memory
  | m, _, [] => m
  | m, a, b :: bs => Memory.writeBytes (Memory.write m a b) (a + 1) bs

/-- The memory that holds the given bytes from an address on, and nothing else. -/
def Memory.ofBytesAt : Nat → List Byte → Memory
  | _, [] => []
  | a, b :: bs => if b = 0#8 then Memory.ofBytesAt (a + 1) bs else (a, b) :: Memory.ofBytesAt (a + 1) bs

/-- Every cell lies at `lo` or above, the addresses rise strictly and no cell is 0. -/
def Memory.wfFrom : Nat → Memory → Bool
  | _, [] => true
  | lo, (x, v) :: rest => decide (lo ≤ x) && decide (v ≠ 0#8) && Memory.wfFrom (x + 1) rest

/-- The canonical form. -/
def Memory.wf (m : Memory) : Bool := Memory.wfFrom 0 m

/-! ## The run's inputs -/

/-- `MAX_OFF(ARCH)` (20_memory.md R36). -/
def State.maxOff (s : State) : Nat :=
  match s.inputs.arch with
  | .bits32 => s.cfg.maxOff32
  | .bits64 => s.cfg.maxOff64

/-- `RecRead(k)` (20_memory.md R34). -/
def State.recRead (s : State) (k : Word) : Byte := Memory.read s.inputs.record k.toNat

/-- `ProgRead(i)`: the record at instruction index `i`, assembled from its eight stream bytes (20_memory.md R31,
30_encoding.md R61). -/
def State.progRead (s : State) (i : Nat) : Insn :=
  let m := s.inputs.prog
  let a := 8 * i
  assembleRecord s.cfg.byteOrder (Memory.read m a) (Memory.read m (a + 1)) (Memory.read m (a + 2))
    (Memory.read m (a + 3)) (Memory.read m (a + 4)) (Memory.read m (a + 5)) (Memory.read m (a + 6))
    (Memory.read m (a + 7))

/-! ## Registers -/

/-- `A <- v`. -/
def State.setAcc (s : State) (v : Word) : State := { s with acc := v }

/-- `ip <- v`. -/
def State.setIp (s : State) (v : Nat) : State := { s with ip := v }

/-- `a +_IP_BITS b`: the sum modulo `2^IP_BITS` (00_scope.md R5, 10_state.md R12); wraparound is not special-cased. -/
def addIpBits (c : Config) (a b : Nat) : Nat := (a + b) % 2 ^ c.ipBits

/-- `jump(d)`: add a distance to the already advanced `ip`, modulo `2^IP_BITS`, and nothing else (42_jump.md R95). -/
def State.jump (s : State) (d : Nat) : State := s.setIp (addIpBits s.cfg s.ip d)

/-- The output `POS`: "the value of `pos`" (10_state.md R18). -/
def State.posOut (s : State) : Nat := s.pos

/-- `ACTION <- k`, and with it `ERRNO`, which is `ACTION[15:0]` (10_state.md R18, 43_return_and_action.md R105). -/
def State.setAction (s : State) (k : Word) : State :=
  { s with out := { s.out with action := k, errno := k.extractLsb' 0 16 } }

/-! ## The parts of a step (40_execution_cycle.md R80) -/

/-- The model is defined for `PROG_LEN <= 4096` only (20_memory.md R33). -/
def State.progLenLegal (s : State) : Bool := decide (s.inputs.progLen.toNat ≤ progMax)

/-- The range test `ip <u PROG_LEN` (40_execution_cycle.md R81). -/
def State.ipInRange (s : State) : Bool := decide (s.ip < s.inputs.progLen.toNat)

/-- The fetch records `pos <- ip` (R82), and the advance follows it: `ip <- ip +_IP_BITS 1` (R83). -/
def State.advance (s : State) : State := { s with pos := s.ip, ip := addIpBits s.cfg s.ip 1 }

/-- The instruction at `ip`, decoded when it is fetched and never ahead of time (30_encoding.md R63). -/
def State.fetched (s : State) : Instr := decodeWord s.cfg (s.progRead s.ip)

/-! ## Ending a run: the machine's exception entry (60_exceptions.md R131, R135) -/

/-- The code of an outcome on `STATUS` (10_state.md R18). -/
def RunOutcome.statusCode : RunOutcome → BitVec 2
  | .ok _ _ => 1
  | .fault _ => 2
  | .programError _ _ => 3

/-- The code of an outcome on `CAUSE` (10_state.md R18). -/
def RunOutcome.causeCode : RunOutcome → BitVec 3
  | .ok _ _ => 0
  | .programError .outOfRange _ => 1
  | .programError .undefinedAction _ => 2
  | .fault .notImplemented => 3

/-- The code of a disposition on `DISP` (10_state.md R18). -/
def Disposition.code : Disposition → BitVec 3
  | .kill => 1
  | .trap => 2
  | .errnoReturn _ => 3
  | .allow => 4

/-- The code of an outcome on `DISP`: NONE but for `Ok` (10_state.md R18, the table of 43_return_and_action.md). -/
def RunOutcome.dispCode : RunOutcome → BitVec 3
  | .ok _ d => d.code
  | .programError _ _ => 0
  | .fault _ => 0

/-- `terminate o`: the phase becomes HALT and the outcome is saved in the status outputs; nothing else changes
(60_exceptions.md R131, R135). -/
def State.terminate (s : State) (o : RunOutcome) : State :=
  { s with
    phase := .halt
    outcome := some o
    out := { s.out with status := o.statusCode, cause := o.causeCode, disp := o.dispCode } }

/-- The failed range test: the step fetches nothing and ends the run, reporting the index of the instruction fetched last
(40_execution_cycle.md R81, 60_exceptions.md R127, 90_conflicts.md C1). -/
def State.rangeError (s : State) : State := s.terminate (.programError .outOfRange s.pos)

/-! ## Starting a run (70_reset_and_hazards.md R150) -/

/-- The assertion of `start`: every piece of engine state takes its reset value, the inputs are not touched
(10_state.md R20), and the assertion is used up (log 11). There is no return from an outcome but this (R137). -/
def State.restart (s : State) : State := { State.reset with inputs := s.inputs, cfg := s.cfg }

/-! ## Putting one record where the next step fetches it (log 17) -/

/-- The index the record is placed at: `ip`, or 0 where `ip` is no index of any program. -/
def State.placeIndex (s : State) : Nat := if s.ip < progMax then s.ip else 0

/-- `PROG_LEN` if it is legal and covers the index, else the least that does. -/
def State.placeLen (s : State) : BitVec 13 :=
  if s.progLenLegal && decide (s.placeIndex < s.inputs.progLen.toNat) then s.inputs.progLen
  else BitVec.ofNat 13 (s.placeIndex + 1)

/-- The state whose next step fetches and runs the record `w`. -/
def State.placeRecord (s : State) (w : Insn) : State :=
  { s with
    start := false
    phase := .run
    ip := s.placeIndex
    inputs := { s.inputs with
      progLen := s.placeLen
      prog := Memory.writeBytes s.inputs.prog (8 * s.placeIndex) (recordBytes s.cfg.byteOrder w) } }

end Sys2Proof.Machine
end

