-- ==== Sys2Proof/Machine/Operands.lean ====
section
/-! DEFINITION. The operand forms (30_encoding.md R64, R65): `k` used whole as an offset, a distance, a constant or an
action code, and `jt`, `jf` as unsigned distances. -/

namespace Sys2Proof.Machine

/-- `k` as a byte offset: valid when strictly less than `MAX_OFF(ARCH)`, unsigned (20_memory.md R36, 41_load.md R90). -/
def State.offsetValid (s : State) (k : Word) : Bool := decide (k.toNat < s.maxOff)

/-- The operand of a load: one byte, zero-extended to the accumulator's width (41_load.md R90, log 23). -/
def State.loadByte (s : State) (k : Word) : Word := (s.recRead k).setWidth 32

/-- `k` as a distance, brought to `IP_BITS` bits: `zext_IP_BITS` with a wider `ip`, `trunc_IP_BITS` with a narrower one,
as it is at 32 bits (30_encoding.md R64). -/
def distanceOfK (c : Config) (k : Word) : Nat := (k.setWidth c.ipBits).toNat

/-- `jt` or `jf` as a distance, zero-extended to `IP_BITS` bits (30_encoding.md R65). -/
def distanceOfByte (c : Config) (d : Byte) : Nat := (d.setWidth c.ipBits).toNat

/-- The distance a conditional jump adds: `jt` when the condition holds, else `jf` (42_jump.md R97 to R99). -/
def chosenDistance (c : Config) (cond : Bool) (jt jf : Byte) : Nat :=
  if cond then distanceOfByte c jt else distanceOfByte c jf

end Sys2Proof.Machine
end

