-- ==== Sys2Proof/Machine/Jump.lean ====
section
/-! DEFINITION. The jump family: JA, JEQ, JGT, JGE (42_jump.md). A jump never checks its target; the next step's range
test does (R95). -/

namespace Sys2Proof.Machine

/-- JA: add `k` to `ip` (42_jump.md R96). -/
def execJa (_jt _jf : Byte) (k : Word) (s : State) : Host.Outcome State Fault Refusal :=
  .next (s.jump (distanceOfK s.cfg k))

/-- JEQ: `jt` if `A == k`, else `jf` (42_jump.md R97). -/
def execJeq (jt jf : Byte) (k : Word) (s : State) : Host.Outcome State Fault Refusal :=
  .next (s.jump (chosenDistance s.cfg (condEq s.acc k) jt jf))

/-- JGT: `jt` if `k >u A`, else `jf` (42_jump.md R98). -/
def execJgt (jt jf : Byte) (k : Word) (s : State) : Host.Outcome State Fault Refusal :=
  .next (s.jump (chosenDistance s.cfg (condGt s.acc k) jt jf))

/-- JGE: `jt` if `k >=u A`, else `jf` (42_jump.md R99). -/
def execJge (jt jf : Byte) (k : Word) (s : State) : Host.Outcome State Fault Refusal :=
  .next (s.jump (chosenDistance s.cfg (condGe s.acc k) jt jf))

end Sys2Proof.Machine
end

