-- ==== Sys2Proof/Machine/Load.lean ====
section
/-! DEFINITION. The load family: LDABS (41_load.md). A meaning runs after the step's fetch and advance, so `pos` is the
instruction's own index and `ip` is `pos + 1` (40_execution_cycle.md R83). -/

namespace Sys2Proof.Machine

/-- LDABS: one byte of the record, zero-extended, after the bounds check (41_load.md R90). -/
def execLdabs (_jt _jf : Byte) (k : Word) (s : State) : Host.Outcome State Fault Refusal :=
  if s.offsetValid k then .next (s.setAcc (s.loadByte k))
  else .next (s.terminate (.programError .outOfRange s.pos))

end Sys2Proof.Machine
end

