-- ==== Sys2Proof/Machine/Return.lean ====
section
/-! DEFINITION. The return family: RET and the action classifier (43_return_and_action.md). -/

namespace Sys2Proof.Machine

/-- The action classifier, bit-exact (43_return_and_action.md R106 to R111). -/
def classify (a : Word) (pos : Nat) : RunOutcome :=
  if a = 0x00000000 then .ok a .kill
  else if a = 0x00020000 then .ok a .trap
  else if a.extractLsb' 16 16 = 0x0003 then .ok a (.errnoReturn (a.extractLsb' 0 16))
  else if a = 0x7fff0000 then .ok a .allow
  else .programError .undefinedAction pos

/-- RET: `ACTION <- k`, and the run ends with what the classifier makes of `k` (43_return_and_action.md R105). -/
def execRet (_jt _jf : Byte) (k : Word) (s : State) : Host.Outcome State Fault Refusal :=
  .next ((s.setAction k).terminate (classify k s.pos))

end Sys2Proof.Machine
end

