-- ==== Sys2Proof/Machine/Unsupported.lean ====
section
/-! DEFINITION. Every other opcode (44_unsupported.md). -/

namespace Sys2Proof.Machine

/-- UNSUPPORTED: the run ends with a Fault, whatever the fields hold (44_unsupported.md R120). -/
def execUnsupported (_opc : Half) (_jt _jf : Byte) (_k : Word) (s : State) : Host.Outcome State Fault Refusal :=
  .next (s.terminate (.fault .notImplemented))

end Sys2Proof.Machine
end

