-- ==== Sys2Proof/Machine/Dispatch.lean ====
section
/-! DEFINITION. The dispatch: one arm per constructor of Instr (40_execution_cycle.md R84). -/

namespace Sys2Proof.Machine

def exec (i : Instr) (s : State) : Host.Outcome State Fault Refusal :=
  match i with
  -- 41_load.md
  | .ldabs jt jf k => Sys2Proof.Machine.execLdabs jt jf k s
  -- 42_jump.md
  | .ja jt jf k => Sys2Proof.Machine.execJa jt jf k s
  | .jeq jt jf k => Sys2Proof.Machine.execJeq jt jf k s
  | .jgt jt jf k => Sys2Proof.Machine.execJgt jt jf k s
  | .jge jt jf k => Sys2Proof.Machine.execJge jt jf k s
  -- 43_return_and_action.md
  | .ret jt jf k => Sys2Proof.Machine.execRet jt jf k s
  -- 44_unsupported.md
  | .unsupported opc jt jf k => Sys2Proof.Machine.execUnsupported opc jt jf k s

end Sys2Proof.Machine
end

