-- ==== Sys2Proof/Machine/Step.lean ====
section
/-! DEFINITION. One step of the engine (40_execution_cycle.md R80): the `start` input first (log 11), then no step in
phase HALT (10_state.md R17), then the refusal of an illegal `PROG_LEN` (20_memory.md R33), then the range test, the
fetch, the advance and the dispatch. -/

namespace Sys2Proof.Machine

/-- One step. -/
def step (s : State) : Host.Outcome State Fault Refusal :=
  if s.start then .next s.restart
  else
    match s.phase with
    | .halt => .fault .halted
    | .run =>
      if s.progLenLegal then
        if s.ipInRange then exec s.fetched s.advance
        else .next s.rangeError
      else .refused .progLenAboveMax

/-- `s` with the record whose bits are `w` (0 above `nbits`) placed where `step` fetches its next instruction
(log 17). -/
def State.withFetchWord (s : State) (nbits w : Nat) : State := s.placeRecord (BitVec.ofNat 64 (w % 2 ^ nbits))

end Sys2Proof.Machine
end

