-- ==== Sys2Proof/Machine/Asm.lean ====
section
/-! DEFINITION. The assembler forms of 30_encoding.md R71, as data: an unused field is assembled as 0. -/

namespace Sys2Proof.Machine

/-- A line of a program in the forms of 30_encoding.md R71. -/
inductive AsmLine where
  | ldabs (k : Word)
  | ja (k : Word)
  | jeq (k : Word) (jt jf : Byte)
  | jgt (k : Word) (jt jf : Byte)
  | jge (k : Word) (jt jf : Byte)
  | ret (k : Word)
  /-- `.insn opc, jt, jf, k`: the four fields as given. -/
  | insn (opc : Half) (jt jf : Byte) (k : Word)
deriving DecidableEq, Repr

/-- The record a line assembles to. -/
def AsmLine.record (c : Config) : AsmLine → Insn
  | .ldabs k => encode c (.ldabs 0 0 k)
  | .ja k => encode c (.ja 0 0 k)
  | .jeq k jt jf => encode c (.jeq jt jf k)
  | .jgt k jt jf => encode c (.jgt jt jf k)
  | .jge k jt jf => encode c (.jge jt jf k)
  | .ret k => encode c (.ret 0 0 k)
  | .insn opc jt jf k => mkRecord opc jt jf k

/-- The byte stream of a program. -/
def assemble (c : Config) (lines : List AsmLine) : List Byte :=
  lines.flatMap fun l => recordBytes c.byteOrder (l.record c)

end Sys2Proof.Machine
end

