-- ==== Sys2Proof/Machine/Loader.lean ====
section
/-! DEFINITION. The program loader and the errors raised before any step, at their interface to the engine
(20_memory.md R44 to R46, 60_exceptions.md R144). Reading the bytes from a file is outside (00_scope.md R3). -/

namespace Sys2Proof.Machine

/-- The causes of a UsageError (60_exceptions.md R125, R144). -/
inductive UsageCause where
  /-- An unrecognised flag, raised by the command line. -/
  | unrecognisedFlag
  /-- A bad architecture value, raised by the command line. -/
  | badArch
  /-- A missing file, raised by the command line. -/
  | missingFile
  /-- The architecture changed after an argument was set, raised by the context builder (20_memory.md R51). -/
  | archAfterArgument
deriving DecidableEq, Repr

/-- The causes of a Fault of the loader (60_exceptions.md R144). -/
inductive LoadCause where
  | ioFailure
  | resourceExhausted
deriving DecidableEq, Repr

/-- An error raised outside the engine, before any step (60_exceptions.md R144). -/
inductive PreRunError where
  | usage (cause : UsageCause)
  | fault (cause : LoadCause)
deriving DecidableEq, Repr

/-- The number 10_state.md R18 reserves on `CAUSE` for an error the engine never produces. -/
def PreRunError.causeCode : PreRunError → BitVec 3
  | .fault .resourceExhausted => 4
  | .fault .ioFailure => 5
  | .usage _ => 6

/-- What the loader is given: a stream of bytes, a source it cannot open or read, or one for which an allocation fails
(20_memory.md R46, log 20). -/
inductive ByteSource where
  | stream (bytes : List Byte)
  | unreadable
  | allocationFails
deriving DecidableEq, Repr

/-- A loaded program: `PROG_LEN` and `PROG`. -/
structure Program where
  len : BitVec 13
  mem : Memory
deriving DecidableEq, Repr

/-- The number of whole records in a stream: `floor(length / 8)` (20_memory.md R44). -/
def recordCount (bytes : List Byte) : Nat := bytes.length / 8

/-- `Load(byteSource) → Program`: the whole records of the stream, dangling bytes dropped with no error, more than
`PROG_MAX` records a resource-exhaustion Fault, no look at any opcode (20_memory.md R44 to R46, log 26). -/
def loadProgram : ByteSource → Except PreRunError Program
  | .stream bytes =>
    if recordCount bytes ≤ progMax then
      .ok { len := BitVec.ofNat 13 (recordCount bytes), mem := Memory.ofBytesAt 0 (bytes.take (8 * recordCount bytes)) }
    else .error (.fault .resourceExhausted)
  | .unreadable => .error (.fault .ioFailure)
  | .allocationFails => .error (.fault .resourceExhausted)

end Sys2Proof.Machine
end

