-- ==== Sys2Proof/Machine/Context.lean ====
section
/-! DEFINITION. The syscall context builder, at its interface to the engine (20_memory.md R35, R50, R51). -/

namespace Sys2Proof.Machine

/-- One request to the builder: fix the tag, give the syscall number, or override one of the six arguments (20_memory.md
R50, R51). -/
inductive ContextRequest where
  | arch (tag : Arch)
  | number (n : Word)
  | arg (i : Fin 6) (v : BitVec 64)
deriving DecidableEq, Repr

/-- The SyscallRecord being built: tag, number, six argument words, and whether an argument was set. -/
structure SyscallRecord where
  arch : Arch
  number : Word
  args : Vector (BitVec 64) 6
  argSet : Bool
deriving DecidableEq, Repr

/-- What is built when nothing is specified: the default tag, number and arguments zero (20_memory.md R50). -/
def SyscallRecord.default : SyscallRecord where
  arch := defaultArch
  number := 0
  args := Vector.replicate 6 0
  argSet := false

/-- One request: the tag must be fixed before any argument (20_memory.md R51, log 21). DESIGN CHOICE, log 21: where the
syscall number, one argument or (before any argument) the tag is requested more than once, the later request holds; the
spec's `Build` takes one of each and is silent. -/
def SyscallRecord.apply (r : SyscallRecord) : ContextRequest → Except PreRunError SyscallRecord
  | .arch a => if r.argSet then .error (.usage .archAfterArgument) else .ok { r with arch := a }
  | .number n => .ok { r with number := n }
  | .arg i v => .ok { r with args := r.args.set i.val v, argSet := true }

/-- Requests in order, stopping at the first error. -/
def SyscallRecord.applyAll : SyscallRecord → List ContextRequest → Except PreRunError SyscallRecord
  | r, [] => .ok r
  | r, q :: qs =>
    match r.apply q with
    | .error e => .error e
    | .ok r' => SyscallRecord.applyAll r' qs

/-- `Build`: the record the requests describe (20_memory.md R50). -/
def buildContext (qs : List ContextRequest) : Except PreRunError SyscallRecord := SyscallRecord.default.applyAll qs

/-- The low `n` bytes of a value, least significant first. -/
def leBytes (n : Nat) {w : Nat} (v : BitVec w) : List Byte := (List.range n).map fun i => v.extractLsb' (8 * i) 8

/-- The record image, whose layout is determined by the tag (20_memory.md R35, D4, log 3). -/
def SyscallRecord.image (r : SyscallRecord) : List Byte :=
  match r.arch with
  | .bits32 => leBytes 4 r.number ++ r.args.toList.flatMap (leBytes 4)
  | .bits64 => leBytes 4 r.number ++ List.replicate 4 0 ++ r.args.toList.flatMap (leBytes 8)

end Sys2Proof.Machine
end

