-- ==== Sys2Proof/Machine/Invocation.lean ====
section
/-! DEFINITION. A command line as its parser hands it on, and the usage errors the command line raises
(60_exceptions.md R144). The parsing of its text is outside (00_scope.md R3). -/

namespace Sys2Proof.Machine

/-- One argument of the command line: a flag that is not recognised, an architecture selector, a syscall number, or an
override of one of the six arguments. -/
inductive CommandArg where
  | unrecognised
  | arch (selector : Nat)
  | number (n : Word)
  | arg (i : Fin 6) (v : BitVec 64)
deriving DecidableEq, Repr

/-- An invocation: its arguments in order, and the program file it names, if it names one. -/
structure Invocation where
  args : List CommandArg
  file : Option ByteSource
deriving DecidableEq, Repr

/-- The "architecture selector (32 or 64)" (92_eei_decisions.md D5); any other value is a usage error
(60_exceptions.md R144). -/
def archOfSelector (n : Nat) : Except PreRunError Arch :=
  if n = 32 then .ok .bits32 else if n = 64 then .ok .bits64 else .error (.usage .badArch)

/-- What an argument asks of the context builder, or the usage error it is (60_exceptions.md R144). -/
def CommandArg.request : CommandArg → Except PreRunError ContextRequest
  | .unrecognised => .error (.usage .unrecognisedFlag)
  | .arch sel => (archOfSelector sel).map .arch
  | .number n => .ok (.number n)
  | .arg i v => .ok (.arg i v)

/-- The builder's requests in order; DESIGN CHOICE, log 30: of several arguments in error the first one is reported. -/
def requestsOf : List CommandArg → Except PreRunError (List ContextRequest)
  | [] => .ok []
  | a :: as =>
    match a.request with
    | .error e => .error e
    | .ok q => (requestsOf as).map (q :: ·)

/-- The command line's part of an invocation: the program source and the builder's requests, or a usage error. A missing
file is an invocation that names none; a file that is named but cannot be opened or read is the loader's Fault
(60_exceptions.md R144; DEDUCED, log 31). DESIGN CHOICE, log 30: an argument in error is reported before a missing file. -/
def Invocation.check (inv : Invocation) : Except PreRunError (ByteSource × List ContextRequest) :=
  match requestsOf inv.args, inv.file with
  | .error e, _ => .error e
  | .ok _, none => .error (.usage .missingFile)
  | .ok qs, some src => .ok (src, qs)

end Sys2Proof.Machine
end

