-- ==== Sys2Proof/Machine/Boot.lean ====
section
/-! DEFINITION. The host's actions before a run: check the command line, load, build the context, then and only
then start (70_reset_and_hazards.md R153). -/

namespace Sys2Proof.Machine

/-- The run's inputs as the loader and the context builder leave them (20_memory.md R46, R50). -/
def inputsOf (p : Program) (r : SyscallRecord) : Inputs where
  arch := r.arch
  progLen := p.len
  prog := p.mem
  record := Memory.ofBytesAt 0 r.image

/-- The start of a run of a machine with the given parameters: if the command line, the loading or the building fails, the
engine is not started at all (70_reset_and_hazards.md R153, 60_exceptions.md R144); else the inputs are set and `start` is
asserted. DESIGN CHOICE, log 30: where several of them fail, the error reported is that of the command line, else that of
the loader, else that of the context builder; R153 leaves their order open ("in any order"). -/
def boot (c : Config) (inv : Invocation) : Except PreRunError State :=
  match inv.check with
  | .error e => .error e
  | .ok (src, qs) =>
    match loadProgram src with
    | .error e => .error e
    | .ok p =>
      match buildContext qs with
      | .error e => .error e
      | .ok r => .ok { State.reset with inputs := inputsOf p r, cfg := c }.restart

end Sys2Proof.Machine
end

