-- ==== Sys2Proof/Machine/Report.lean ====
section
/-! DEFINITION. The report to the host (60_exceptions.md R141 to R143), as data: its text is output formatting, outside
the engine (00_scope.md R3). -/

namespace Sys2Proof.Machine

/-- The tag of a report (60_exceptions.md R141, 43_return_and_action.md R112). -/
inductive ReportTag where
  | kill
  | trap
  | errno (n : Half)
  | allow
  | fault
  | error
deriving DecidableEq, Repr

/-- The single word of a tag (60_exceptions.md R141); for `ERRNO(n)` the word before the bracket, since the radix of `n`
is not given (43_return_and_action.md R112). -/
def ReportTag.word : ReportTag → String
  | .kill => "KILL"
  | .trap => "TRAP"
  | .errno _ => "ERRNO"
  | .allow => "ALLOW"
  | .fault => "FAULT"
  | .error => "ERROR"

/-- A report: the tag, and when verbosity is enabled the numeric cause and, for program errors, the offending
instruction index (60_exceptions.md R141). -/
structure Report where
  tag : ReportTag
  cause : Option (BitVec 3)
  pos : Option Nat
deriving DecidableEq, Repr

/-- The tag of an outcome: the disposition on success, FAULT or ERROR on failure (60_exceptions.md R141). -/
def RunOutcome.tag : RunOutcome → ReportTag
  | .ok _ .kill => .kill
  | .ok _ .trap => .trap
  | .ok _ (.errnoReturn n) => .errno n
  | .ok _ .allow => .allow
  | .fault _ => .fault
  | .programError _ _ => .error

/-- The instruction index an outcome carries: program errors only (44_unsupported.md R120, log 9). -/
def RunOutcome.reportPos : RunOutcome → Option Nat
  | .ok _ _ => none
  | .fault _ => none
  | .programError _ p => some p

/-- The numeric cause an outcome is reported with: failures only (60_exceptions.md R141, log 22). -/
def RunOutcome.reportCause : RunOutcome → Option (BitVec 3)
  | .ok _ _ => none
  | .fault c => some (RunOutcome.causeCode (.fault c))
  | .programError c p => some (RunOutcome.causeCode (.programError c p))

/-- The report of an outcome; verbosity widens it and never changes the classification (60_exceptions.md R143). -/
def report (verbose : Bool) (o : RunOutcome) : Report where
  tag := o.tag
  cause := if verbose then o.reportCause else none
  pos := if verbose then o.reportPos else none

/-- The exit code of an outcome (60_exceptions.md R142). -/
def exitCode (c : Config) : RunOutcome → Nat
  | .ok _ _ => 0
  | .fault _ => c.exitFault
  | .programError _ _ => c.exitError

/-- The report of an error raised before any step: a Fault of the loader is tagged as any Fault is; for a UsageError the
spec gives no tag (60_exceptions.md R141, R144, log 22). -/
def preRunReport (verbose : Bool) : PreRunError → Option Report
  | .usage _ => none
  | .fault c => some { tag := .fault, cause := if verbose then some (PreRunError.causeCode (.fault c)) else none, pos := none }

/-- The exit code of an error raised before any step (60_exceptions.md R142, R144). -/
def preRunExitCode (c : Config) : PreRunError → Nat
  | .usage _ => c.exitUsage
  | .fault _ => c.exitFault

end Sys2Proof.Machine
end

