-- ==== Sys2Proof/Safety.lean ====
section
/-! DEFINITION. The terms claims use: a state in which the engine executes a loop iteration, and what holds of every
state of a run. -/

namespace Sys2Proof.Machine

/-- A state in which a step is one iteration of the loop (40_execution_cycle.md R80): `start` is not asserted, the phase
is RUN and `PROG_LEN` is one the engine can be given (20_memory.md R33). -/
structure State.Looping (s : State) : Prop where
  noStart : s.start = false
  running : s.phase = .run
  lenLegal : s.inputs.progLen.toNat ≤ progMax

/-- `A` holds 0 or a loaded byte (10_state.md R11, 42_jump.md R100). -/
def State.AccIsByte (s : State) : Prop := s.acc.toNat ≤ 255

/-- The scratch bank is zero (10_state.md R14). -/
def State.ScratchZero (s : State) : Prop := s.scratch = Vector.replicate 16 0

/-- `pos` is the index of an instruction of the program, or 0 before the first fetch (10_state.md R13, log 8). -/
def State.PosIsIndex (s : State) : Prop := s.pos < s.inputs.progLen.toNat ∨ s.pos = 0

/-- The action codes of a disposition (43_return_and_action.md, table of section 3). -/
def Disposition.OfCode : Disposition → Word → Prop
  | .kill, a => a = 0x00000000
  | .trap, a => a = 0x00020000
  | .errnoReturn e, a => a.toNat = 0x00030000 + e.toNat
  | .allow, a => a = 0x7fff0000

/-- Phase, outcome and status outputs say the same thing, and an error's position is `pos` (10_state.md R17, R18, R20;
60_exceptions.md section 2; log 10). -/
def State.OutcomeAgrees (s : State) : Prop :=
  match s.outcome with
  | none => s.phase = .run ∧ s.out = Outputs.reset
  | some (.ok a d) =>
    s.phase = .halt ∧ d.OfCode a ∧ s.out.status = 1 ∧ s.out.cause = 0 ∧ s.out.action = a ∧ s.out.disp = d.code ∧
      s.out.errno.toNat = a.toNat % 2 ^ 16
  | some (.programError .outOfRange p) =>
    s.phase = .halt ∧ p = s.pos ∧
      s.out = { status := 3, cause := 1, action := 0, disp := 0, errno := 0 }
  | some (.programError .undefinedAction p) =>
    s.phase = .halt ∧ p = s.pos ∧ s.out.status = 3 ∧ s.out.cause = 2 ∧ s.out.disp = 0 ∧
      (∀ d : Disposition, ¬ d.OfCode s.out.action) ∧ s.out.errno.toNat = s.out.action.toNat % 2 ^ 16
  | some (.fault .notImplemented) =>
    s.phase = .halt ∧ s.out = { status := 2, cause := 3, action := 0, disp := 0, errno := 0 }

/-- Where `ip` stands after the terminating step (60_exceptions.md R135, log 19). -/
def State.IpFrozen (s : State) : Prop :=
  match s.outcome with
  | none => True
  | some (.programError .outOfRange _) =>
    s.ip = s.pos + 1 ∨ s.inputs.progLen.toNat ≤ s.ip
  | some (.ok _ _) | some (.programError .undefinedAction _) | some (.fault _) => s.ip = s.pos + 1

/-- `ip` and `pos` are values of registers of `IP_BITS` bits (10_state.md R12, R13). -/
def State.IndexesFit (s : State) : Prop := s.ip < 2 ^ s.cfg.ipBits ∧ s.pos < 2 ^ s.cfg.ipBits

/-- Both memories are in their canonical form. -/
def State.MemoryCanonical (s : State) : Prop := s.inputs.prog.wf = true ∧ s.inputs.record.wf = true

/-- What holds of every state of a run of a machine whose parameters are ones the spec admits. -/
structure State.RunInv (s : State) : Prop where
  cfgLegal : s.cfg.wf = true
  indexesFit : s.IndexesFit
  accIsByte : s.AccIsByte
  scratchZero : s.ScratchZero
  posIsIndex : s.PosIsIndex
  outcomeAgrees : s.OutcomeAgrees
  ipFrozen : s.IpFrozen
  memoryCanonical : s.MemoryCanonical

end Sys2Proof.Machine
end

