-- ==== Sys2Proof/Certificates/Slice0/Obligations.lean ====
section
/-! DEFINITION. The statements for the provers. Each docstring names the rule of spec/ it formalises or the section it
rests on; where a clause rests on a decision of the spec or of the model, it says so. -/

open Sys2Proof Sys2Proof.Machine

/-! ## Encoding -/

/-- Decode and encode agree, through the byte stream and for every choice of the parameters the spec admits: the bytes
of a well-formed instruction decode to it, whatever follows them (30_encoding.md sections 1 and 2; in both byte orders,
of which D2 makes little-endian the default). -/
def Obligations.DecodeOfEncodedBytes : Prop :=
  ∀ (c : Config) (i : Instr) (rest : List Byte), c.wf = true → i.wf c = true →
    decodeBytes c (encodeBytes c i ++ rest) = .ok (i, rest)

/-- The other direction: every one of the 2^64 records decodes to a well-formed instruction whose record it is
(30_encoding.md section 2: decoding is total; no bit of a record is dropped). -/
def Obligations.EncodeOfDecodedRecord : Prop :=
  ∀ (c : Config) (w : Insn), (decodeWord c w).wf c = true ∧ encode c (decodeWord c w) = w

/-- Decoding selects by the whole 16-bit opcode and by nothing else (30_encoding.md section 2). -/
def Obligations.DecodeSelectsByWholeOpcode : Prop :=
  ∀ (c : Config), c.wf = true → ∀ w : Insn,
    ((decodeWord c w).mnemonic = "LDABS" ↔ opcOf w = c.opcLdabs) ∧
    ((decodeWord c w).mnemonic = "JA" ↔ opcOf w = c.opcJa) ∧
    ((decodeWord c w).mnemonic = "JEQ" ↔ opcOf w = c.opcJeq) ∧
    ((decodeWord c w).mnemonic = "JGT" ↔ opcOf w = c.opcJgt) ∧
    ((decodeWord c w).mnemonic = "JGE" ↔ opcOf w = c.opcJge) ∧
    ((decodeWord c w).mnemonic = "RET" ↔ opcOf w = c.opcRet) ∧
    ((decodeWord c w).mnemonic = "UNSUPPORTED" ↔ opcOf w ∉ c.opcodes) ∧
    ∀ w' : Insn, opcOf w' = opcOf w → (decodeWord c w').mnemonic = (decodeWord c w).mnemonic

/-- Which stream byte goes where, as numbers, in both byte orders (30_encoding.md section 1; that the default order is
little-endian is D2). -/
def Obligations.RecordFieldsFromStreamBytes : Prop :=
  ∀ b0 b1 b2 b3 b4 b5 b6 b7 : Byte,
    (∀ o, jtOf (assembleRecord o b0 b1 b2 b3 b4 b5 b6 b7) = b2 ∧ jfOf (assembleRecord o b0 b1 b2 b3 b4 b5 b6 b7) = b3 ∧
      recordBytes o (assembleRecord o b0 b1 b2 b3 b4 b5 b6 b7) = [b0, b1, b2, b3, b4, b5, b6, b7]) ∧
    (opcOf (assembleRecord .little b0 b1 b2 b3 b4 b5 b6 b7)).toNat = b0.toNat + 2 ^ 8 * b1.toNat ∧
    (kOf (assembleRecord .little b0 b1 b2 b3 b4 b5 b6 b7)).toNat
      = b4.toNat + 2 ^ 8 * b5.toNat + 2 ^ 16 * b6.toNat + 2 ^ 24 * b7.toNat ∧
    (opcOf (assembleRecord .big b0 b1 b2 b3 b4 b5 b6 b7)).toNat = b1.toNat + 2 ^ 8 * b0.toNat ∧
    (kOf (assembleRecord .big b0 b1 b2 b3 b4 b5 b6 b7)).toNat
      = b7.toNat + 2 ^ 8 * b6.toNat + 2 ^ 16 * b5.toNat + 2 ^ 24 * b4.toNat

/-- A few records written out in 95_test_vectors.md decode as it says (a sanity statement; rests on D2 and D3). -/
def Obligations.SpecRecordsDecode : Prop :=
  decodeTableWord 64 0x0000001c00000020 = some (.ldabs 0 0 28) ∧
  decodeTableWord 64 0xffffffff00000005 = some (.ja 0 0 0xffffffff) ∧
  decodeTableWord 64 0x00000000ffff0015 = some (.jeq 255 255 0) ∧
  decodeTableWord 64 0x0000000603020025 = some (.jgt 2 3 6) ∧
  decodeTableWord 64 0x0000000201000035 = some (.jge 0 1 2) ∧
  decodeTableWord 64 0x0003002600000006 = some (.ret 0 0 0x00030026) ∧
  decodeTableWord 64 0x0000000000000106 = some (.unsupported 0x0106 0 0 0)

/-! ## Memory, the loader and the context builder -/

/-- Canonical memories that read alike at every address are the same data (the model's memory, logs 15 and 16;
20_memory.md section 1). -/
def Obligations.CanonicalMemoryIsItsReads : Prop :=
  ∀ m m' : Memory, m.wf = true → m'.wf = true → (∀ a, Memory.read m a = Memory.read m' a) → m = m'

/-- The loader reads whole records until the source is exhausted; the count is the number of whole records, dangling bytes
are not counted, and record `i` of the stream, assembled from its eight bytes, is instruction `i` (20_memory.md section 4;
that 4096 whole records followed by dangling bytes load is D22, log 26). -/
def Obligations.LoaderReadsWholeRecords : Prop :=
  ∀ bytes : List Byte, bytes.length / 8 ≤ 4096 →
    ∃ p : Program, loadProgram (.stream bytes) = .ok p ∧ p.len.toNat = bytes.length / 8 ∧
      ∀ s : State, s.inputs.prog = p.mem → ∀ i : Nat, i < p.len.toNat →
        s.progRead i = assembleRecord s.cfg.byteOrder
          (bytes.getD (8 * i) 0) (bytes.getD (8 * i + 1) 0) (bytes.getD (8 * i + 2) 0) (bytes.getD (8 * i + 3) 0)
          (bytes.getD (8 * i + 4) 0) (bytes.getD (8 * i + 5) 0) (bytes.getD (8 * i + 6) 0) (bytes.getD (8 * i + 7) 0)

/-- A final partial record is dropped without an error (20_memory.md section 4; D22 for 4096 whole records). -/
def Obligations.LoaderDropsDanglingBytes : Prop :=
  ∀ (n : Nat) (bytes tail : List Byte), n ≤ 4096 → bytes.length = 8 * n → tail.length < 8 →
    ∃ p : Program, loadProgram (.stream (bytes ++ tail)) = .ok p ∧ p.len.toNat = n ∧
      loadProgram (.stream bytes) = .ok p

/-- When loading fails, and with which Fault (20_memory.md section 4, 60_exceptions.md section 7; that the limit counts
whole records is D22, that an unreadable source and a failed allocation are kinds of source is log 20). -/
def Obligations.LoaderFailsExactlyBeyondItsLimits : Prop :=
  (∀ bytes : List Byte, loadProgram (.stream bytes) = .error (.fault .resourceExhausted) ↔ 32776 ≤ bytes.length) ∧
  loadProgram .unreadable = .error (.fault .ioFailure) ∧
  loadProgram .allocationFails = .error (.fault .resourceExhausted)

/-- The byte layout of the record image (20_memory.md section 1; the layout and its sizes are the decision D4). -/
def Obligations.RecordImageLayout : Prop :=
  ∀ r : SyscallRecord,
    (r.arch = .bits32 →
      r.image.length = 28 ∧
      (∀ j, j < 4 → (r.image.getD j 0).toNat = r.number.toNat / 2 ^ (8 * j) % 2 ^ 8) ∧
      ∀ (i : Fin 6) (j : Nat), j < 4 →
        (r.image.getD (4 + 4 * i.val + j) 0).toNat = r.args[i.val].toNat / 2 ^ (8 * j) % 2 ^ 8) ∧
    (r.arch = .bits64 →
      r.image.length = 56 ∧
      (∀ j, j < 4 → (r.image.getD j 0).toNat = r.number.toNat / 2 ^ (8 * j) % 2 ^ 8) ∧
      (∀ j, 4 ≤ j → j < 8 → r.image.getD j 0 = 0) ∧
      ∀ (i : Fin 6) (j : Nat), j < 8 →
        (r.image.getD (8 + 8 * i.val + j) 0).toNat = r.args[i.val].toNat / 2 ^ (8 * j) % 2 ^ 8)

/-- What is not specified is zero, and the tag is 32-bit unless overridden (20_memory.md section 5). -/
def Obligations.UnspecifiedContextIsDefault : Prop :=
  ∀ (qs : List ContextRequest) (r : SyscallRecord), buildContext qs = .ok r →
    ((∀ a, ContextRequest.arch a ∉ qs) → r.arch = .bits32) ∧
    ((∀ n, ContextRequest.number n ∉ qs) → r.number = 0) ∧
    ∀ i : Fin 6, (∀ v, ContextRequest.arg i v ∉ qs) → r.args[i.val] = 0

/-- Once an argument is set, a tag request is a usage error, whatever follows it (20_memory.md section 5; that a request
naming the tag already in force is one too is log 21). -/
def Obligations.ArchAfterArgumentIsUsageError : Prop :=
  ∀ (before between after : List ContextRequest) (i : Fin 6) (v : BitVec 64) (a : Arch) (r : SyscallRecord),
    buildContext (before ++ .arg i v :: between) = .ok r →
    buildContext (before ++ .arg i v :: between ++ .arch a :: after) = .error (.usage .archAfterArgument)

/-- The usage errors of the command line: an unrecognised flag, a bad architecture value, a missing file; none of them
starts the engine, each ends with the code of a usage error and each is reported under its own cause (60_exceptions.md
section 7). That a missing file is one the invocation does not name is log 31; that the command line's error comes before
the loader's and the builder's, and an argument in error before a missing file, is log 30. -/
def Obligations.MalformedInvocationIsUsageError : Prop :=
  ∀ (c : Config) (inv : Invocation),
    (.unrecognised ∈ inv.args ∨ (∃ sel, .arch sel ∈ inv.args ∧ sel ≠ 32 ∧ sel ≠ 64) ∨ inv.file = none ↔
      ∃ e, inv.check = .error e) ∧
    (∀ e, inv.check = .error e → boot c inv = .error e ∧ preRunExitCode c e = c.exitUsage) ∧
    (.unrecognised ∈ inv.args → (∀ sel, .arch sel ∈ inv.args → sel = 32 ∨ sel = 64) →
      boot c inv = .error (.usage .unrecognisedFlag)) ∧
    (.unrecognised ∉ inv.args → (∃ sel, .arch sel ∈ inv.args ∧ sel ≠ 32 ∧ sel ≠ 64) →
      boot c inv = .error (.usage .badArch)) ∧
    (.unrecognised ∉ inv.args → (∀ sel, .arch sel ∈ inv.args → sel = 32 ∨ sel = 64) → inv.file = none →
      boot c inv = .error (.usage .missingFile))

/-- If the command line is right and loading and building succeed, a run starts, with everything the invariant of a run
says, in a state that loops and holds what was loaded and built (70_reset_and_hazards.md section 2; the registers' reset
values include the decisions D8 and D10). -/
def Obligations.BootedRunIsReady : Prop :=
  ∀ (c : Config) (inv : Invocation) (src : ByteSource) (qs : List ContextRequest) (p : Program) (r : SyscallRecord),
    c.wf = true → requestsOf inv.args = .ok qs → inv.file = some src →
    loadProgram src = .ok p → buildContext qs = .ok r →
    ∃ s, boot c inv = .ok s ∧ s.RunInv ∧ s.Looping ∧ s.cfg = c ∧ s.acc = 0 ∧ s.ip = 0 ∧
      s.inputs.progLen = p.len ∧ s.inputs.prog = p.mem ∧ s.inputs.arch = r.arch ∧
      ∀ a, Memory.read s.inputs.record a = r.image.getD a 0

/-- The engine starts only if every one of the host's actions succeeds: if loading or building fails, it is not started at
all (70_reset_and_hazards.md section 2; the statement does not depend on the order of log 30). -/
def Obligations.StartNeedsEveryPart : Prop :=
  ∀ (c : Config) (inv : Invocation) (s : State), boot c inv = .ok s →
    ∃ src qs p r, requestsOf inv.args = .ok qs ∧ inv.file = some src ∧ loadProgram src = .ok p ∧
      buildContext qs = .ok r ∧ s.inputs = inputsOf p r

/-- The record placed for the next fetch is the one the next step runs (the model's own operation, log 17). -/
def Obligations.PlacedRecordRunsNext : Prop :=
  ∀ (s : State) (w : Insn), s.inputs.prog.wf = true →
    step (s.placeRecord w) = exec (decodeWord s.cfg w) (s.placeRecord w).advance ∧
    (s.placeRecord w).acc = s.acc ∧ (s.placeRecord w).inputs.record = s.inputs.record ∧
    ∀ a, a < 8 * (s.placeRecord w).ip ∨ 8 * (s.placeRecord w).ip + 8 ≤ a →
      Memory.read (s.placeRecord w).inputs.prog a = Memory.read s.inputs.prog a

/-! ## Reset and start -/

/-- The invariant of a run holds at reset (10_state.md section 6; `pos` and the outputs are 0 by D8 and D10, and
State.reset's inputs are log 14). -/
def Obligations.ResetMeetsRunInv : Prop := State.reset.RunInv ∧ State.reset.Looping

/-- Asserting `start` resets every piece of engine state, whatever it was, and touches no input (70_reset_and_hazards.md
section 1, 10_state.md section 6; D8, D10, D11; that the step uses the assertion up is log 11). -/
def Obligations.StartResetsEngine : Prop :=
  ∀ s : State, s.start = true → ∃ t, step s = .next t ∧
    t.acc = 0 ∧ t.ip = 0 ∧ t.pos = 0 ∧ (∀ i : Fin 16, t.scratch[i.val] = 0) ∧ t.phase = .run ∧ t.outcome = none ∧
    t.out.status = 0 ∧ t.out.cause = 0 ∧ t.out.action = 0 ∧ t.out.disp = 0 ∧ t.out.errno = 0 ∧
    t.start = false ∧ t.inputs = s.inputs ∧ t.cfg = s.cfg

/-! ## The step -/

/-- A step runs the decoded instruction: when the eight bytes at `ip` decode to `i`, the step is `exec i` on the state
with `pos` at `ip` and `ip` advanced by one modulo `2^IP_BITS` (40_execution_cycle.md section 1). -/
def Obligations.StepRunsDecodedInstruction : Prop :=
  ∀ (s : State) (i : Instr), s.Looping → s.ip < s.inputs.progLen.toNat →
    decodeBytes s.cfg ((List.range 8).map fun j => Memory.read s.inputs.prog (8 * s.ip + j)) = .ok (i, []) →
    step s = exec i { s with pos := s.ip, ip := (s.ip + 1) % 2 ^ s.cfg.ipBits }

/-- A failed range test executes nothing and reports the index of the instruction fetched last
(40_execution_cycle.md section 1; for the empty program that index is 0 by D8; the codes are D10). -/
def Obligations.RangeTestFailureEndsRun : Prop :=
  ∀ s : State, s.Looping → s.inputs.progLen.toNat ≤ s.ip →
    ∃ t, step s = .next t ∧ t.phase = .halt ∧ t.outcome = some (.programError .outOfRange s.pos) ∧
      t.posOut = s.pos ∧ t.out = { s.out with status := 3, cause := 1, disp := 0 } ∧
      t = { s with phase := t.phase, outcome := t.outcome, out := t.out }

/-- Every error, like every outcome, is final: the step that produces it puts the engine in phase HALT, and no later step
exists in this run, however often one is tried (60_exceptions.md R131; that a missing step is the stop `halted` is the
model's choice, log 12). -/
def Obligations.EveryOutcomeIsFinal : Prop :=
  ∀ s t : State, s.start = false → s.outcome = none → step s = .next t → t.outcome ≠ none →
    t.phase = .halt ∧ ∀ n : Nat, Host.Core.run core (n + 1) t = .fault .halted

/-- A step stops only where the engine has no step, and is refused only for a `PROG_LEN` above 4096 (10_state.md
section 5, 20_memory.md section 1; the fault is log 12, the refusal is D18 and log 13). -/
def Obligations.StepStopsExactlyWhere : Prop :=
  ∀ s : State,
    (∀ f, step s = .fault f ↔ f = .halted ∧ s.start = false ∧ s.phase = .halt) ∧
    (∀ r, step s = .refused r ↔
      r = .progLenAboveMax ∧ s.start = false ∧ s.phase = .run ∧ 4096 < s.inputs.progLen.toNat)

/-- Every step keeps the invariant of a run: the parameters are legal, `ip` and `pos` fit `IP_BITS` bits, `A` is at most 255,
the scratch bank is zero, `pos` names an instruction, phase, outcome and outputs agree, `ip` is frozen as it should be, both
memories are canonical (10_state.md, 42_jump.md section 3, 60_exceptions.md sections 2 and 3; D1, D6, D8, D9, D10, D20). -/
def Obligations.StepKeepsRunInv : Prop :=
  ∀ s t : State, s.RunInv → step s = .next t → t.RunInv

/-- The run's inputs and the machine's parameters are frozen, and no step writes the scratch bank but a reset
(20_memory.md section 1, 70_reset_and_hazards.md section 3, 10_state.md section 2). -/
def Obligations.StepNeverWritesMemory : Prop :=
  ∀ s t : State, step s = .next t →
    t.inputs = s.inputs ∧ t.cfg = s.cfg ∧ (s.start = false → t.scratch = s.scratch) ∧
    ∀ a, Memory.read t.inputs.prog a = Memory.read s.inputs.prog a ∧
      Memory.read t.inputs.record a = Memory.read s.inputs.record a

/-- `pos` is written at every fetch with the value `ip` had before the advance, and by nothing else (10_state.md section
2, 40_execution_cycle.md section 1). -/
def Obligations.PosNamesFetchedInstruction : Prop :=
  ∀ s t : State, s.start = false → step s = .next t →
    (s.ip < s.inputs.progLen.toNat → t.pos = s.ip) ∧ (s.inputs.progLen.toNat ≤ s.ip → t.pos = s.pos)

/-- `ip` is advanced by one before the dispatch, and the `+1` never wraps; so an instruction that does not write `ip`
leaves it one past its own index, and every jump distance is relative to the instruction after the jump
(40_execution_cycle.md R83; the conditions are 42_jump.md R97 to R99, unsigned by D7, log 7; that `IP_BITS` is a parameter
of 13 bits or more is D1, log 1). -/
def Obligations.AdvanceComesBeforeDispatch : Prop :=
  ∀ s : State, 13 ≤ s.cfg.ipBits → s.Looping → s.ip < s.inputs.progLen.toNat →
    ∃ t, step s = .next t ∧ t.pos = s.ip ∧
      match decodeWord s.cfg (s.progRead s.ip) with
      | .ldabs _ _ _ | .ret _ _ _ | .unsupported _ _ _ _ => t.ip = s.ip + 1
      | .ja _ _ k => t.ip = (s.ip + 1 + k.toNat) % 2 ^ s.cfg.ipBits
      | .jeq jt jf k => t.ip = s.ip + 1 + if s.acc = k then jt.toNat else jf.toNat
      | .jgt jt jf k => t.ip = s.ip + 1 + if k.toNat > s.acc.toNat then jt.toNat else jf.toNat
      | .jge jt jf k => t.ip = s.ip + 1 + if k.toNat ≥ s.acc.toNat then jt.toNat else jf.toNat

/-- Which single outcome a step can have, and with which position (60_exceptions.md section 3; the position of an
undefined action and that of the empty program are D9 and D8). -/
def Obligations.OutcomeOfEachStep : Prop :=
  ∀ s : State, s.Looping → s.outcome = none →
    ∃ t, step s = .next t ∧ (t.phase = .halt ↔ t.outcome ≠ none) ∧
      (s.inputs.progLen.toNat ≤ s.ip → t.outcome = some (.programError .outOfRange s.pos)) ∧
      (s.ip < s.inputs.progLen.toNat →
        match decodeWord s.cfg (s.progRead s.ip) with
        | .ldabs _ _ k => t.outcome = if k.toNat < s.maxOff then none else some (.programError .outOfRange s.ip)
        | .ja _ _ _ | .jeq _ _ _ | .jgt _ _ _ | .jge _ _ _ => t.outcome = none
        | .ret _ _ k =>
          (∃ d : Disposition, d.OfCode k ∧ t.outcome = some (.ok k d)) ∨
          ((∀ d : Disposition, ¬ d.OfCode k) ∧ t.outcome = some (.programError .undefinedAction s.ip))
        | .unsupported _ _ _ _ => t.outcome = some (.fault .notImplemented))

/-- R126: the normal outcome is `Ok(action, disp)`, and it is reached exactly by a RET whose `k` is one of the four
dispositions' codes. -/
def Obligations.ReturnIsTheOnlyNormalEnd : Prop :=
  ∀ (s : State) (a : Word) (d : Disposition), s.Looping → s.outcome = none →
    ((∃ t, step s = .next t ∧ t.outcome = some (.ok a d)) ↔
      s.ip < s.inputs.progLen.toNat ∧ d.OfCode a ∧
        ∃ jt jf, decodeWord s.cfg (s.progRead s.ip) = .ret jt jf a)

/-- Without a wrapping JA a run ends within `PROG_LEN + 1` steps, whatever the program and the record (an inference the
spec marks as its own in 70_reset_and_hazards.md section 3). A JA wraps when its distance, brought to `IP_BITS` bits,
reaches `2^IP_BITS`; that `IP_BITS` is a parameter of 13 bits or more is D1, log 1. -/
def Obligations.NoWrappingJaMeansTermination : Prop :=
  ∀ s : State, 13 ≤ s.cfg.ipBits → s.Looping →
    (∀ (i : Nat) (jt jf : Byte) (k : Word), i < s.inputs.progLen.toNat →
      decodeWord s.cfg (s.progRead i) = .ja jt jf k → i + 1 + k.toNat % 2 ^ s.cfg.ipBits < 2 ^ s.cfg.ipBits) →
    ∃ (n : Nat) (t : State), n ≤ s.inputs.progLen.toNat + 1 ∧ Host.Core.run core n s = .next t ∧
      t.phase = .halt ∧ t.outcome ≠ none

/-- The engine is deterministic in its inputs, and reads nothing beyond them: memory outside `PROG[0, PROG_LEN)` and
`REC[0, MAX_OFF(ARCH))` cannot influence a step (20_memory.md section 1, 40_execution_cycle.md section 3). -/
def Obligations.StepReadsOnlyItsExtents : Prop :=
  ∀ (s : State) (prog' record' : Memory),
    (∀ a, a < 8 * s.inputs.progLen.toNat → Memory.read prog' a = Memory.read s.inputs.prog a) →
    (∀ a, a < s.maxOff → Memory.read record' a = Memory.read s.inputs.record a) →
    ∀ t, step s = .next t →
      step { s with inputs := { s.inputs with prog := prog', record := record' } }
        = .next { t with inputs := { s.inputs with prog := prog', record := record' } }

/-! ## The load -/

/-- LDABS at a valid offset reads one byte, zero-extended, into `A` and changes nothing else (41_load.md; the zero
extension is D21). -/
def Obligations.LdabsLoadsOneByte : Prop :=
  ∀ (s : State) (jt jf : Byte) (k : Word),
    k.toNat < (match s.inputs.arch with | .bits32 => s.cfg.maxOff32 | .bits64 => s.cfg.maxOff64) →
    ∃ t, exec (.ldabs jt jf k) s = .next t ∧
      t.acc.toNat = (Memory.read s.inputs.record k.toNat).toNat ∧ t = { s with acc := t.acc }

/-- LDABS at an offset that is not strictly below the maximum does not load and ends the run at its own position
(41_load.md, 60_exceptions.md section 2; one cause for both range errors is D17, the codes are D10). -/
def Obligations.LdabsOutOfRangeEndsRun : Prop :=
  ∀ (s : State) (jt jf : Byte) (k : Word),
    (match s.inputs.arch with | .bits32 => s.cfg.maxOff32 | .bits64 => s.cfg.maxOff64) ≤ k.toNat →
    ∃ t, exec (.ldabs jt jf k) s = .next t ∧ t.phase = .halt ∧
      t.outcome = some (.programError .outOfRange s.pos) ∧
      t.out = { s.out with status := 3, cause := 1, disp := 0 } ∧
      t = { s with phase := t.phase, outcome := t.outcome, out := t.out }

/-- The accumulator is written by LDABS alone, and by it only with a byte of the record (10_state.md section 2). -/
def Obligations.AccWrittenOnlyByLoad : Prop :=
  ∀ (i : Instr) (s t : State), exec i s = .next t → t.acc ≠ s.acc →
    ∃ jt jf k, i = .ldabs jt jf k ∧ k.toNat < s.maxOff ∧
      t.acc.toNat = (Memory.read s.inputs.record k.toNat).toNat ∧ t.acc.toNat ≤ 255

/-- The tag affects an instruction through `MAX_OFF` alone: an instruction that is no load does the same under either
tag, and so does a load whose offset both tags allow; an offset only one of them allows loads its byte there and ends the
run under the other (41_load.md; 30_encoding.md section 4). -/
def Obligations.ArchActsThroughMaxOffOnly : Prop :=
  ∀ (i : Instr) (s : State) (a b : Arch), let sa := { s with inputs := { s.inputs with arch := a } }
    let sb := { s with inputs := { s.inputs with arch := b } }
    ((∀ jt jf k, i = .ldabs jt jf k → (k.toNat < sa.maxOff ↔ k.toNat < sb.maxOff)) →
      ∀ t, exec i sa = .next t → exec i sb = .next { t with inputs := sb.inputs }) ∧
    ∀ jt jf k, i = .ldabs jt jf k → k.toNat < sa.maxOff → sb.maxOff ≤ k.toNat →
      (∃ t, exec i sa = .next t ∧ t.acc.toNat = (Memory.read s.inputs.record k.toNat).toNat ∧
        t = { sa with acc := t.acc }) ∧
      ∃ t, exec i sb = .next t ∧ t.phase = .halt ∧ t.outcome = some (.programError .outOfRange s.pos) ∧ t.acc = s.acc

/-! ## The jumps -/

/-- JA adds `k` to `ip` modulo `2^IP_BITS`, whatever `IP_BITS` is, and writes nothing else (42_jump.md, 30_encoding.md
section 3; that the width is a parameter is D1, log 1). -/
def Obligations.JaAddsDistance : Prop :=
  ∀ (s : State) (jt jf : Byte) (k : Word),
    ∃ t, exec (.ja jt jf k) s = .next t ∧ t.ip = (s.ip + k.toNat) % 2 ^ s.cfg.ipBits ∧ t = { s with ip := t.ip }

/-- JEQ adds `jt` when `A` equals `k` and `jf` otherwise, and writes nothing else (42_jump.md; that the width is a
parameter is D1, log 1). -/
def Obligations.JeqComparesForEquality : Prop :=
  ∀ (s : State) (jt jf : Byte) (k : Word),
    ∃ t, exec (.jeq jt jf k) s = .next t ∧
      (s.acc.toNat = k.toNat → t.ip = (s.ip + jt.toNat) % 2 ^ s.cfg.ipBits) ∧
      (s.acc.toNat ≠ k.toNat → t.ip = (s.ip + jf.toNat) % 2 ^ s.cfg.ipBits) ∧ t = { s with ip := t.ip }

/-- JGT adds `jt` when the constant is above `A`, unsigned, and `jf` otherwise, and writes nothing else (42_jump.md;
unsigned is D7, that the width is a parameter is D1, log 1). -/
def Obligations.JgtHasConstantOnTheLeft : Prop :=
  ∀ (s : State) (jt jf : Byte) (k : Word),
    ∃ t, exec (.jgt jt jf k) s = .next t ∧
      (k.toNat > s.acc.toNat → t.ip = (s.ip + jt.toNat) % 2 ^ s.cfg.ipBits) ∧
      (k.toNat ≤ s.acc.toNat → t.ip = (s.ip + jf.toNat) % 2 ^ s.cfg.ipBits) ∧ t = { s with ip := t.ip }

/-- JGE adds `jt` when the constant is `A` or above, unsigned, and `jf` otherwise, and writes nothing else (42_jump.md;
unsigned is D7, that the width is a parameter is D1, log 1). -/
def Obligations.JgeHasConstantOnTheLeft : Prop :=
  ∀ (s : State) (jt jf : Byte) (k : Word),
    ∃ t, exec (.jge jt jf k) s = .next t ∧
      (k.toNat ≥ s.acc.toNat → t.ip = (s.ip + jt.toNat) % 2 ^ s.cfg.ipBits) ∧
      (k.toNat < s.acc.toNat → t.ip = (s.ip + jf.toNat) % 2 ^ s.cfg.ipBits) ∧ t = { s with ip := t.ip }

/-- R65: `jt` and `jf` are unsigned distances, and one of them is added to `ip`: a conditional jump reaches from 0 to 255
instructions past the next instruction and never goes backwards. The premise is the spec's own condition on the
width (40_execution_cycle.md R83, R89: `IP_BITS >= 13`). -/
def Obligations.ConditionalJumpsGoForward : Prop :=
  ∀ (s : State) (jt jf : Byte) (k : Word), 13 ≤ s.cfg.ipBits → s.Looping → s.ip < s.inputs.progLen.toNat →
    decodeWord s.cfg (s.progRead s.ip) ∈ [Instr.jeq jt jf k, Instr.jgt jt jf k, Instr.jge jt jf k] →
    ∃ t, step s = .next t ∧ (t.ip = s.ip + 1 + jt.toNat ∨ t.ip = s.ip + 1 + jf.toNat) ∧
      s.ip + 1 ≤ t.ip ∧ t.ip ≤ s.ip + 1 + 255

/-- With an `ip` of 13 to 32 bits a JA at `p` whose `k` is `(target - p - 1)` modulo `2^IP_BITS` reaches any target at all,
backwards by wraparound, and its own index when `k` is 0xffffffff; with a wider `ip` no JA of a program wraps
(42_jump.md section 2, 30_encoding.md section 3; the width is the parameter of D1, log 1). -/
def Obligations.JaReachesAnyTarget : Prop :=
  ∀ (s : State) (jt jf : Byte) (k : Word), 13 ≤ s.cfg.ipBits → s.Looping → s.ip < s.inputs.progLen.toNat →
    decodeWord s.cfg (s.progRead s.ip) = .ja jt jf k →
    ∃ t, step s = .next t ∧ t.pos = s.ip ∧ t.phase = .run ∧
      (s.cfg.ipBits ≤ 32 →
        (∀ target, target < 2 ^ s.cfg.ipBits →
          k.toNat % 2 ^ s.cfg.ipBits = (target + 2 ^ s.cfg.ipBits - s.ip - 1) % 2 ^ s.cfg.ipBits → t.ip = target) ∧
        (k = 0xffffffff → t.ip = s.ip)) ∧
      (32 < s.cfg.ipBits → t.ip = s.ip + 1 + k.toNat)

/-! ## The return and the classifier -/

/-- RET makes `k` the action code and ends the run in this step with what the classifier makes of it; it reads no
register and writes only the outcome and the outputs (43_return_and_action.md section 1; the position is D9, `ip` as
left is D20). -/
def Obligations.RetEndsRunWithItsConstant : Prop :=
  ∀ (s : State) (jt jf : Byte) (k : Word),
    ∃ t, exec (.ret jt jf k) s = .next t ∧ t.phase = .halt ∧ t.out.action = k ∧
      ((∃ d : Disposition, d.OfCode k ∧ t.outcome = some (.ok k d)) ∨
        ((∀ d : Disposition, ¬ d.OfCode k) ∧ t.outcome = some (.programError .undefinedAction s.pos))) ∧
      t = { s with phase := t.phase, outcome := t.outcome, out := t.out }

/-- R107: Kill is exactly the code 0; a code whose top half is 0 and whose low half is not is undefined. -/
def Obligations.KillIsExactlyZero : Prop :=
  ∀ (s : State) (jt jf : Byte) (k : Word), ∃ t, exec (.ret jt jf k) s = .next t ∧
    (t.outcome = some (.ok k .kill) ↔ k = 0x00000000) ∧
    (k.toNat / 2 ^ 16 = 0 → k.toNat % 2 ^ 16 ≠ 0 →
      ∃ p, t.outcome = some (.programError .undefinedAction p))

/-- R108: Trap is exactly the code 0x00020000; the other codes with that top half are undefined. -/
def Obligations.TrapIsExactlyItsCode : Prop :=
  ∀ (s : State) (jt jf : Byte) (k : Word), ∃ t, exec (.ret jt jf k) s = .next t ∧
    (t.outcome = some (.ok k .trap) ↔ k = 0x00020000) ∧
    (0x00020001 ≤ k.toNat → k.toNat ≤ 0x0002ffff →
      ∃ p, t.outcome = some (.programError .undefinedAction p))

/-- R109: every code with top half 0x0003 is an ErrnoReturn that carries the low half, with no further range check. -/
def Obligations.ErrnoReturnCarriesLowHalf : Prop :=
  ∀ (s : State) (jt jf : Byte) (k : Word), ∃ t, exec (.ret jt jf k) s = .next t ∧
    ∀ e : Half, (t.outcome = some (.ok k (.errnoReturn e)) ↔ k.toNat = 0x00030000 + e.toNat)

/-- R110: Allow is exactly the code 0x7fff0000; the other codes with that top half are undefined. -/
def Obligations.AllowIsExactlyItsCode : Prop :=
  ∀ (s : State) (jt jf : Byte) (k : Word), ∃ t, exec (.ret jt jf k) s = .next t ∧
    (t.outcome = some (.ok k .allow) ↔ k = 0x7fff0000) ∧
    (0x7fff0001 ≤ k.toNat → k.toNat ≤ 0x7fffffff →
      ∃ p, t.outcome = some (.programError .undefinedAction p))

/-- The status outputs after a RET, disposition by disposition (the codes are the decision D10; that ERRNO is driven
after every RET is log 10). -/
def Obligations.ReturnDrivesStatusOutputs : Prop :=
  ∀ (s : State) (jt jf : Byte) (k : Word), ∃ t, exec (.ret jt jf k) s = .next t ∧
    t.out.errno.toNat = k.toNat % 2 ^ 16 ∧
    (k = 0x00000000 → t.out.status = 1 ∧ t.out.cause = 0 ∧ t.out.disp = 1) ∧
    (k = 0x00020000 → t.out.status = 1 ∧ t.out.cause = 0 ∧ t.out.disp = 2) ∧
    (k.toNat / 2 ^ 16 = 3 → t.out.status = 1 ∧ t.out.cause = 0 ∧ t.out.disp = 3) ∧
    (k = 0x7fff0000 → t.out.status = 1 ∧ t.out.cause = 0 ∧ t.out.disp = 4) ∧
    ((∀ d : Disposition, ¬ d.OfCode k) → t.out.status = 3 ∧ t.out.cause = 2 ∧ t.out.disp = 0)

/-! ## Every other opcode -/

/-- UNSUPPORTED ends the run with a Fault, class Fault and not ProgramError, and writes nothing but the outcome and its
outputs (44_unsupported.md, 60_exceptions.md section 2; the codes are D10, no position is D9). -/
def Obligations.UnsupportedEndsRunWithFault : Prop :=
  ∀ (s : State) (opc : Half) (jt jf : Byte) (k : Word),
    ∃ t, exec (.unsupported opc jt jf k) s = .next t ∧ t.phase = .halt ∧
      t.outcome = some (.fault .notImplemented) ∧ (∀ c p, t.outcome ≠ some (.programError c p)) ∧
      t.out = { s.out with status := 2, cause := 3, disp := 0 } ∧
      t = { s with phase := t.phase, outcome := t.outcome, out := t.out }

/-- R121: the unsupported arm is the default arm of the dispatch: a 16-bit value that no other arm claims lands there,
and is not a no-op, not skipped and not a program error. -/
def Obligations.UnclaimedOpcodeFaults : Prop :=
  ∀ s : State, s.Looping → s.ip < s.inputs.progLen.toNat →
    opcOf (s.progRead s.ip) ∉ [s.cfg.opcLdabs, s.cfg.opcJa, s.cfg.opcJeq, s.cfg.opcJgt, s.cfg.opcJge, s.cfg.opcRet] →
    ∃ t, step s = .next t ∧ t.phase = .halt ∧ t.outcome = some (.fault .notImplemented)

/-! ## All instructions -/

/-- Fields an instruction does not use are ignored, not checked (30_encoding.md section 3; D14): LDABS, JA and RET look at
`k` alone, an unsupported opcode at nothing else. -/
def Obligations.UnusedFieldsAreIgnored : Prop :=
  ∀ (c : Config) (s : State) (w w' : Insn), opcOf w' = opcOf w →
    (opcOf w = c.opcLdabs ∨ opcOf w = c.opcJa ∨ opcOf w = c.opcRet → c.wf = true → kOf w' = kOf w →
      exec (decodeWord c w') s = exec (decodeWord c w) s) ∧
    (opcOf w ∉ c.opcodes → exec (decodeWord c w') s = exec (decodeWord c w) s)

/-- The frame of every instruction: no instruction writes `pos`, the scratch bank, an input, a parameter, `start` or any
byte of memory; only LDABS writes `A`, only the four jumps write `ip`, and only an instruction that ends the run writes
the phase, the outcome and the outputs (10_state.md section 2, 60_exceptions.md section 3). -/
def Obligations.FrameOfEveryInstruction : Prop :=
  ∀ (i : Instr) (s t : State), exec i s = .next t →
    t.pos = s.pos ∧ t.scratch = s.scratch ∧ t.inputs = s.inputs ∧ t.cfg = s.cfg ∧ t.start = s.start ∧
    (∀ a, Memory.read t.inputs.prog a = Memory.read s.inputs.prog a ∧
      Memory.read t.inputs.record a = Memory.read s.inputs.record a) ∧
    (i.mnemonic ≠ "LDABS" → t.acc = s.acc) ∧
    (i.mnemonic ∉ ["JA", "JEQ", "JGT", "JGE"] → t.ip = s.ip) ∧
    (i.mnemonic ∈ ["JA", "JEQ", "JGT", "JGE"] →
      t.phase = s.phase ∧ t.outcome = s.outcome ∧ t.out = s.out) ∧
    (t.acc ≠ s.acc → t.phase = s.phase ∧ t.outcome = s.outcome ∧ t.out = s.out) ∧
    (i.mnemonic ≠ "RET" → t.out.action = s.out.action ∧ t.out.errno = s.out.errno)

/-! ## The report -/

/-- The exit code follows the class of the outcome: 0 exactly when a disposition was produced, whichever it is, the Fault
code for a Fault and the ProgramError code for a ProgramError; the tag says the class; verbosity adds the cause and, for
program errors only, the index, and never changes the tag (60_exceptions.md section 7; the codes are D16, the numeric cause
is log 22). -/
def Obligations.ReportFollowsOutcome : Prop :=
  ∀ (c : Config) (o : RunOutcome),
    (∀ f, o = .fault f → exitCode c o = c.exitFault) ∧
    (∀ e p, o = .programError e p → exitCode c o = c.exitError) ∧
    (c.exitFault ≠ 0 → c.exitError ≠ 0 → (exitCode c o = 0 ↔ ∃ a d, o = .ok a d)) ∧
    (∀ v v', (report v o).tag = (report v' o).tag) ∧
    (∀ v, (report v o).tag = .fault ↔ ∃ f, o = .fault f) ∧
    (∀ v, (report v o).tag = .error ↔ ∃ e p, o = .programError e p) ∧
    (∀ v p, (report v o).pos = some p ↔ v = true ∧ ∃ e, o = .programError e p) ∧
    (∀ v, (report v o).cause = none ↔ v = false ∨ ∃ a d, o = .ok a d)
end

