-- ==== Sys2Proof/Laws/Classify.lean ====
section
/-! SUPPORT. Everything the classifier can answer, said once (43_return_and_action.md R106). -/

namespace Sys2Proof.Machine

/-- A code belongs to one disposition at most: the four patterns are disjoint. -/
theorem Disposition.ofCode_unique {d d' : Disposition} {k : Word} (h : d.OfCode k) (h' : d'.OfCode k) : d = d' := by
  have key : ∀ {d : Disposition}, d.OfCode k →
      (k.toNat = 0 ∧ d = .kill) ∨ (k.toNat = 0x00020000 ∧ d = .trap) ∨
      (∃ e : Half, k.toNat = 0x00030000 + e.toNat ∧ d = .errnoReturn e) ∨ (k.toNat = 0x7fff0000 ∧ d = .allow) := by
    intro d hd
    cases d with
    | kill => exact .inl ⟨congrArg BitVec.toNat (show k = 0 from hd), rfl⟩
    | trap => exact .inr (.inl ⟨congrArg BitVec.toNat (show k = 0x00020000 from hd), rfl⟩)
    | errnoReturn e => exact .inr (.inr (.inl ⟨e, hd, rfl⟩))
    | allow => exact .inr (.inr (.inr ⟨congrArg BitVec.toNat (show k = 0x7fff0000 from hd), rfl⟩))
  obtain ⟨hk, rfl⟩ | ⟨hk, rfl⟩ | ⟨e, hk, rfl⟩ | ⟨hk, rfl⟩ := key h <;>
  obtain ⟨hk', rfl⟩ | ⟨hk', rfl⟩ | ⟨e', hk', rfl⟩ | ⟨hk', rfl⟩ := key h' <;>
  first
  | rfl
  | exact congrArg _ (BitVec.eq_of_toNat_eq (by omega))
  | (exfalso; first | (have he := e.isLt; omega) | (have he := e'.isLt; omega) | omega)

/-- The classifier answers `Ok` with the disposition whose code it is given, or an undefined action. -/
theorem classify_cases (k : Word) (p : Nat) :
    (∃ d : Disposition, d.OfCode k ∧ classify k p = .ok k d) ∨
    ((∀ d : Disposition, ¬ d.OfCode k) ∧ classify k p = .programError .undefinedAction p) := by
  have hi : k.extractLsb' 16 16 = 0x0003 ↔ k.toNat / 2 ^ 16 = 3 := by
    have h := k.isLt
    rw [← BitVec.toNat_inj, BitVec.extractLsb'_toNat, Nat.shiftRight_eq_div_pow]
    show k.toNat / 2 ^ 16 % 2 ^ 16 = 3 ↔ _
    omega
  have lo : (k.extractLsb' 0 16).toNat = k.toNat % 2 ^ 16 := by simp [BitVec.extractLsb'_toNat]
  unfold classify
  split
  · exact .inl ⟨.kill, ‹_›, rfl⟩
  split
  · exact .inl ⟨.trap, ‹_›, rfl⟩
  split
  · rename_i h
    rw [hi] at h
    exact .inl ⟨.errnoReturn _, show k.toNat = 0x00030000 + _ by omega, rfl⟩
  split
  · exact .inl ⟨.allow, ‹_›, rfl⟩
  · rename_i hkill htrap herrno hallow
    rw [hi] at herrno
    refine .inr ⟨fun d => ?_, rfl⟩
    cases d with
    | kill => exact hkill
    | trap => exact htrap
    | errnoReturn e =>
      intro h
      have he := e.isLt
      have hk : k.toNat = 0x00030000 + e.toNat := h
      exact herrno (by omega)
    | allow => exact hallow

end Sys2Proof.Machine
end

