-- ==== Sys2Proof/Laws/Decode.lean ====
section
/-! SUPPORT. The fields of a record stand where 30_encoding.md R60 puts them, and what the decoder answers. -/

namespace Sys2Proof

variable (opc : Half) (jt jf : Byte) (k : Word) (w : Insn) (c : Config)

/-! ## A record as a number -/

theorem mkRecord_toNat :
    (mkRecord opc jt jf k).toNat = opc.toNat + 2 ^ 16 * jt.toNat + 2 ^ 24 * jf.toNat + 2 ^ 32 * k.toNat := by
  have h1 := opc.isLt
  have h2 := jt.isLt
  have h3 := jf.isLt
  simp only [mkRecord, BitVec.toNat_append]
  rw [← Nat.shiftLeft_add_eq_or_of_lt h3, ← Nat.shiftLeft_add_eq_or_of_lt h2, ← Nat.shiftLeft_add_eq_or_of_lt h1]
  simp only [Nat.shiftLeft_eq]
  omega

theorem opcOf_toNat : (opcOf w).toNat = w.toNat % 2 ^ 16 := by
  simp [opcOf, BitVec.extractLsb'_toNat]

theorem jtOf_toNat : (jtOf w).toNat = w.toNat / 2 ^ 16 % 2 ^ 8 := by
  simp [jtOf, BitVec.extractLsb'_toNat, Nat.shiftRight_eq_div_pow]

theorem jfOf_toNat : (jfOf w).toNat = w.toNat / 2 ^ 24 % 2 ^ 8 := by
  simp [jfOf, BitVec.extractLsb'_toNat, Nat.shiftRight_eq_div_pow]

theorem kOf_toNat : (kOf w).toNat = w.toNat / 2 ^ 32 := by
  have h := w.isLt
  simp only [kOf, BitVec.extractLsb'_toNat, Nat.shiftRight_eq_div_pow]
  omega

/-! ## Reading a field back -/

@[simp] theorem opcOf_mkRecord : opcOf (mkRecord opc jt jf k) = opc := by
  apply BitVec.eq_of_toNat_eq
  have h1 := opc.isLt
  rw [opcOf_toNat, mkRecord_toNat]
  omega

@[simp] theorem jtOf_mkRecord : jtOf (mkRecord opc jt jf k) = jt := by
  apply BitVec.eq_of_toNat_eq
  have h1 := opc.isLt
  have h2 := jt.isLt
  rw [jtOf_toNat, mkRecord_toNat]
  omega

@[simp] theorem jfOf_mkRecord : jfOf (mkRecord opc jt jf k) = jf := by
  apply BitVec.eq_of_toNat_eq
  have h1 := opc.isLt
  have h2 := jt.isLt
  have h3 := jf.isLt
  rw [jfOf_toNat, mkRecord_toNat]
  omega

@[simp] theorem kOf_mkRecord : kOf (mkRecord opc jt jf k) = k := by
  apply BitVec.eq_of_toNat_eq
  have h1 := opc.isLt
  have h2 := jt.isLt
  have h3 := jf.isLt
  rw [kOf_toNat, mkRecord_toNat]
  omega

/-- A record is the four fields it holds, and nothing else. -/
theorem mkRecord_fields : mkRecord (opcOf w) (jtOf w) (jfOf w) (kOf w) = w := by
  apply BitVec.eq_of_toNat_eq
  rw [mkRecord_toNat, opcOf_toNat, jtOf_toNat, jfOf_toNat, kOf_toNat]
  omega

/-- The bytes of a record, assembled again in the same order, are that record. -/
theorem assembleRecord_recordBytes (o : ByteOrder) :
    ∃ b0 b1 b2 b3 b4 b5 b6 b7, recordBytes o w = [b0, b1, b2, b3, b4, b5, b6, b7] ∧
      assembleRecord o b0 b1 b2 b3 b4 b5 b6 b7 = w := by
  cases o <;> refine ⟨_, _, _, _, _, _, _, _, rfl, ?_⟩ <;>
  · unfold assembleRecord mkRecord jtOf jfOf
    ext i hi
    grind

/-! ## What the decoder answers -/

/-- Everything decoding can do: the seven arms, each with the opcode that selects it. -/
theorem decodeWord_cases :
    (opcOf w = c.opcLdabs ∧ decodeWord c w = .ldabs (jtOf w) (jfOf w) (kOf w)) ∨
    (opcOf w = c.opcJa ∧ decodeWord c w = .ja (jtOf w) (jfOf w) (kOf w)) ∨
    (opcOf w = c.opcJeq ∧ decodeWord c w = .jeq (jtOf w) (jfOf w) (kOf w)) ∨
    (opcOf w = c.opcJgt ∧ decodeWord c w = .jgt (jtOf w) (jfOf w) (kOf w)) ∨
    (opcOf w = c.opcJge ∧ decodeWord c w = .jge (jtOf w) (jfOf w) (kOf w)) ∨
    (opcOf w = c.opcRet ∧ decodeWord c w = .ret (jtOf w) (jfOf w) (kOf w)) ∨
    (opcOf w ∉ c.opcodes ∧ decodeWord c w = .unsupported (opcOf w) (jtOf w) (jfOf w) (kOf w)) := by
  unfold decodeWord
  split
  · exact .inl ⟨‹_›, rfl⟩
  split
  · exact .inr (.inl ⟨‹_›, rfl⟩)
  split
  · exact .inr (.inr (.inl ⟨‹_›, rfl⟩))
  split
  · exact .inr (.inr (.inr (.inl ⟨‹_›, rfl⟩)))
  split
  · exact .inr (.inr (.inr (.inr (.inl ⟨‹_›, rfl⟩))))
  split
  · exact .inr (.inr (.inr (.inr (.inr (.inl ⟨‹_›, rfl⟩)))))
  · refine .inr (.inr (.inr (.inr (.inr (.inr ⟨?_, rfl⟩)))))
    simp only [Config.opcodes, List.mem_cons, List.not_mem_nil, or_false, not_or]
    exact ⟨‹_›, ‹_›, ‹_›, ‹_›, ‹_›, ‹_›⟩

/-- The default parameters meet what the spec requires of any. -/
theorem defaultConfig_wf : defaultConfig.wf = true := by decide

end Sys2Proof
end

