-- ==== Sys2Proof/Laws/State.lean ====
section
/-! SUPPORT. What each update of the state does to each field: one lemma per field per update, all true by rfl, so that
no later proof unfolds a record update. -/

namespace Sys2Proof.Machine

variable (s : State) (v : Word) (d : Nat) (o : RunOutcome)

/-! ## `setAcc` -/

@[simp] theorem State.setAcc_acc : (s.setAcc v).acc = v := rfl
@[simp] theorem State.setAcc_ip : (s.setAcc v).ip = s.ip := rfl
@[simp] theorem State.setAcc_pos : (s.setAcc v).pos = s.pos := rfl
@[simp] theorem State.setAcc_scratch : (s.setAcc v).scratch = s.scratch := rfl
@[simp] theorem State.setAcc_phase : (s.setAcc v).phase = s.phase := rfl
@[simp] theorem State.setAcc_outcome : (s.setAcc v).outcome = s.outcome := rfl
@[simp] theorem State.setAcc_out : (s.setAcc v).out = s.out := rfl
@[simp] theorem State.setAcc_start : (s.setAcc v).start = s.start := rfl
@[simp] theorem State.setAcc_inputs : (s.setAcc v).inputs = s.inputs := rfl
@[simp] theorem State.setAcc_cfg : (s.setAcc v).cfg = s.cfg := rfl

/-! ## `setIp` -/

@[simp] theorem State.setIp_acc : (s.setIp d).acc = s.acc := rfl
@[simp] theorem State.setIp_ip : (s.setIp d).ip = d := rfl
@[simp] theorem State.setIp_pos : (s.setIp d).pos = s.pos := rfl
@[simp] theorem State.setIp_scratch : (s.setIp d).scratch = s.scratch := rfl
@[simp] theorem State.setIp_phase : (s.setIp d).phase = s.phase := rfl
@[simp] theorem State.setIp_outcome : (s.setIp d).outcome = s.outcome := rfl
@[simp] theorem State.setIp_out : (s.setIp d).out = s.out := rfl
@[simp] theorem State.setIp_start : (s.setIp d).start = s.start := rfl
@[simp] theorem State.setIp_inputs : (s.setIp d).inputs = s.inputs := rfl
@[simp] theorem State.setIp_cfg : (s.setIp d).cfg = s.cfg := rfl

/-! ## `jump` -/

@[simp] theorem State.jump_acc : (s.jump d).acc = s.acc := rfl
@[simp] theorem State.jump_ip : (s.jump d).ip = addIpBits s.cfg s.ip d := rfl
@[simp] theorem State.jump_pos : (s.jump d).pos = s.pos := rfl
@[simp] theorem State.jump_scratch : (s.jump d).scratch = s.scratch := rfl
@[simp] theorem State.jump_phase : (s.jump d).phase = s.phase := rfl
@[simp] theorem State.jump_outcome : (s.jump d).outcome = s.outcome := rfl
@[simp] theorem State.jump_out : (s.jump d).out = s.out := rfl
@[simp] theorem State.jump_start : (s.jump d).start = s.start := rfl
@[simp] theorem State.jump_inputs : (s.jump d).inputs = s.inputs := rfl
@[simp] theorem State.jump_cfg : (s.jump d).cfg = s.cfg := rfl

/-! ## `setAction` -/

@[simp] theorem State.setAction_acc : (s.setAction v).acc = s.acc := rfl
@[simp] theorem State.setAction_ip : (s.setAction v).ip = s.ip := rfl
@[simp] theorem State.setAction_pos : (s.setAction v).pos = s.pos := rfl
@[simp] theorem State.setAction_scratch : (s.setAction v).scratch = s.scratch := rfl
@[simp] theorem State.setAction_phase : (s.setAction v).phase = s.phase := rfl
@[simp] theorem State.setAction_outcome : (s.setAction v).outcome = s.outcome := rfl
@[simp] theorem State.setAction_out : (s.setAction v).out = { s.out with action := v, errno := v.extractLsb' 0 16 } := rfl
@[simp] theorem State.setAction_start : (s.setAction v).start = s.start := rfl
@[simp] theorem State.setAction_inputs : (s.setAction v).inputs = s.inputs := rfl
@[simp] theorem State.setAction_cfg : (s.setAction v).cfg = s.cfg := rfl

/-! ## `advance` -/

@[simp] theorem State.advance_acc : (s.advance).acc = s.acc := rfl
@[simp] theorem State.advance_ip : (s.advance).ip = addIpBits s.cfg s.ip 1 := rfl
@[simp] theorem State.advance_pos : (s.advance).pos = s.ip := rfl
@[simp] theorem State.advance_scratch : (s.advance).scratch = s.scratch := rfl
@[simp] theorem State.advance_phase : (s.advance).phase = s.phase := rfl
@[simp] theorem State.advance_outcome : (s.advance).outcome = s.outcome := rfl
@[simp] theorem State.advance_out : (s.advance).out = s.out := rfl
@[simp] theorem State.advance_start : (s.advance).start = s.start := rfl
@[simp] theorem State.advance_inputs : (s.advance).inputs = s.inputs := rfl
@[simp] theorem State.advance_cfg : (s.advance).cfg = s.cfg := rfl

/-! ## `terminate` -/

@[simp] theorem State.terminate_acc : (s.terminate o).acc = s.acc := rfl
@[simp] theorem State.terminate_ip : (s.terminate o).ip = s.ip := rfl
@[simp] theorem State.terminate_pos : (s.terminate o).pos = s.pos := rfl
@[simp] theorem State.terminate_scratch : (s.terminate o).scratch = s.scratch := rfl
@[simp] theorem State.terminate_phase : (s.terminate o).phase = .halt := rfl
@[simp] theorem State.terminate_outcome : (s.terminate o).outcome = some o := rfl
@[simp] theorem State.terminate_out : (s.terminate o).out = { s.out with status := o.statusCode, cause := o.causeCode, disp := o.dispCode } := rfl
@[simp] theorem State.terminate_start : (s.terminate o).start = s.start := rfl
@[simp] theorem State.terminate_inputs : (s.terminate o).inputs = s.inputs := rfl
@[simp] theorem State.terminate_cfg : (s.terminate o).cfg = s.cfg := rfl

/-! ## `rangeError` -/

@[simp] theorem State.rangeError_acc : (s.rangeError).acc = s.acc := rfl
@[simp] theorem State.rangeError_ip : (s.rangeError).ip = s.ip := rfl
@[simp] theorem State.rangeError_pos : (s.rangeError).pos = s.pos := rfl
@[simp] theorem State.rangeError_scratch : (s.rangeError).scratch = s.scratch := rfl
@[simp] theorem State.rangeError_phase : (s.rangeError).phase = .halt := rfl
@[simp] theorem State.rangeError_outcome : (s.rangeError).outcome = some (.programError .outOfRange s.pos) := rfl
@[simp] theorem State.rangeError_out : (s.rangeError).out = { s.out with status := 3, cause := 1, disp := 0 } := rfl
@[simp] theorem State.rangeError_start : (s.rangeError).start = s.start := rfl
@[simp] theorem State.rangeError_inputs : (s.rangeError).inputs = s.inputs := rfl
@[simp] theorem State.rangeError_cfg : (s.rangeError).cfg = s.cfg := rfl

/-! ## `restart` -/

@[simp] theorem State.restart_acc : (s.restart).acc = 0 := rfl
@[simp] theorem State.restart_ip : (s.restart).ip = 0 := rfl
@[simp] theorem State.restart_pos : (s.restart).pos = 0 := rfl
@[simp] theorem State.restart_scratch : (s.restart).scratch = Vector.replicate 16 0 := rfl
@[simp] theorem State.restart_phase : (s.restart).phase = .run := rfl
@[simp] theorem State.restart_outcome : (s.restart).outcome = none := rfl
@[simp] theorem State.restart_out : (s.restart).out = Outputs.reset := rfl
@[simp] theorem State.restart_start : (s.restart).start = false := rfl
@[simp] theorem State.restart_inputs : (s.restart).inputs = s.inputs := rfl
@[simp] theorem State.restart_cfg : (s.restart).cfg = s.cfg := rfl

end Sys2Proof.Machine
end

