-- ==== Sys2Proof/Laws/Exec.lean ====
section
/-! SUPPORT. Everything an instruction and a step can do, said once. -/

namespace Sys2Proof.Machine

/-! ## The shared operations -/

theorem offsetValid_iff {s : State} {k : Word} : s.offsetValid k = true ↔ k.toNat < s.maxOff := by
  simp [State.offsetValid]

theorem ipInRange_iff {s : State} : s.ipInRange = true ↔ s.ip < s.inputs.progLen.toNat := by
  simp [State.ipInRange]

theorem progLenLegal_iff {s : State} : s.progLenLegal = true ↔ s.inputs.progLen.toNat ≤ 4096 :=
  decide_eq_true_iff

/-- A loaded byte is 0 to 255. -/
theorem loadByte_toNat (s : State) (k : Word) : (s.loadByte k).toNat = (s.recRead k).toNat := by
  have h := (s.recRead k).isLt
  simp only [State.loadByte, BitVec.toNat_setWidth]
  omega

/-- Zero-extended or truncated, a distance is `k` modulo `2^IP_BITS` (30_encoding.md R64). -/
theorem distanceOfK_eq (c : Config) (k : Word) : distanceOfK c k = k.toNat % 2 ^ c.ipBits := by
  simp [distanceOfK]

/-- In a register of 13 bits or more a byte's distance is the byte (30_encoding.md R65). -/
theorem distanceOfByte_eq {c : Config} (h : 13 ≤ c.ipBits) (d : Byte) : distanceOfByte c d = d.toNat := by
  have hd := d.isLt
  have hp : 2 ^ 13 ≤ 2 ^ c.ipBits := Nat.pow_le_pow_right (by decide) h
  rw [distanceOfByte, BitVec.toNat_setWidth, Nat.mod_eq_of_lt (by omega)]

theorem chosenDistance_eq {c : Config} (h : 13 ≤ c.ipBits) (cond : Bool) (jt jf : Byte) :
    chosenDistance c cond jt jf = if cond then jt.toNat else jf.toNat := by
  cases cond <;> simp [chosenDistance, distanceOfByte_eq h]

/-- Whatever is added, the result fits the register. -/
theorem addIpBits_lt (c : Config) (a b : Nat) : addIpBits c a b < 2 ^ c.ipBits :=
  Nat.mod_lt _ (Nat.two_pow_pos _)

/-- A sum below 2^13 does not wrap: the advance and the conditional jumps (40_execution_cycle.md R83, R89). -/
theorem addIpBits_of_small {c : Config} (h : 13 ≤ c.ipBits) {a b : Nat} (hab : a + b < 2 ^ 13) :
    addIpBits c a b = a + b := by
  have hp : 2 ^ 13 ≤ 2 ^ c.ipBits := Nat.pow_le_pow_right (by decide) h
  exact Nat.mod_eq_of_lt (by omega)

/-- Where a JA goes, whatever the width: bringing the distance to `IP_BITS` bits first changes nothing. -/
theorem addIpBits_distanceOfK (c : Config) (a : Nat) (k : Word) :
    addIpBits c a (distanceOfK c k) = (a + k.toNat) % 2 ^ c.ipBits := by
  rw [distanceOfK_eq, addIpBits, Nat.add_mod_mod]

/-- Where a conditional jump goes, whatever the width. -/
theorem addIpBits_chosenDistance (c : Config) (a : Nat) (cond : Bool) (jt jf : Byte) :
    addIpBits c a (chosenDistance c cond jt jf) = (a + if cond then jt.toNat else jf.toNat) % 2 ^ c.ipBits := by
  cases cond <;> simp [chosenDistance, distanceOfByte, addIpBits]

/-- What the spec requires of the width of `ip`. -/
theorem ipBits_of_wf {c : Config} (h : c.wf = true) : 13 ≤ c.ipBits := by
  simp only [Config.wf, Bool.and_eq_true, decide_eq_true_eq] at h
  exact h.1.1.1.1

/-! ## Inversion of exec -/

/-- The conditional jumps and JA, with the distance each adds. -/
def JumpsBy (s : State) (d : Nat) : Instr → Prop
  | .ja _ _ k => d = distanceOfK s.cfg k
  | .jeq jt jf k => d = chosenDistance s.cfg (condEq s.acc k) jt jf
  | .jgt jt jf k => d = chosenDistance s.cfg (condGt s.acc k) jt jf
  | .jge jt jf k => d = chosenDistance s.cfg (condGe s.acc k) jt jf
  | .ldabs _ _ _ | .ret _ _ _ | .unsupported _ _ _ _ => False

/-- Everything an instruction can do. -/
theorem exec_cases {i : Instr} {s t : State} (h : exec i s = .next t) :
    (∃ jt jf k, i = .ldabs jt jf k ∧ k.toNat < s.maxOff ∧ t = s.setAcc (s.loadByte k)) ∨
    (∃ jt jf k, i = .ldabs jt jf k ∧ s.maxOff ≤ k.toNat ∧ t = s.terminate (.programError .outOfRange s.pos)) ∨
    (∃ d, JumpsBy s d i ∧ t = s.jump d) ∨
    (∃ jt jf k, i = .ret jt jf k ∧ t = (s.setAction k).terminate (classify k s.pos)) ∨
    (∃ opc jt jf k, i = .unsupported opc jt jf k ∧ t = s.terminate (.fault .notImplemented)) := by
  cases i with
  | ldabs jt jf k =>
    simp only [exec, execLdabs] at h
    split at h
    · exact .inl ⟨jt, jf, k, rfl, offsetValid_iff.1 ‹_›, by simpa using h.symm⟩
    · refine .inr (.inl ⟨jt, jf, k, rfl, ?_, by simpa using h.symm⟩)
      exact Nat.le_of_not_lt fun hk => ‹¬ _› (offsetValid_iff.2 hk)
  | ja jt jf k =>
    refine .inr (.inr (.inl ⟨_, rfl, ?_⟩))
    simpa [exec, execJa] using h.symm
  | jeq jt jf k => exact .inr (.inr (.inl ⟨_, rfl, by simpa [exec, execJeq] using h.symm⟩))
  | jgt jt jf k => exact .inr (.inr (.inl ⟨_, rfl, by simpa [exec, execJgt] using h.symm⟩))
  | jge jt jf k => exact .inr (.inr (.inl ⟨_, rfl, by simpa [exec, execJge] using h.symm⟩))
  | ret jt jf k => exact .inr (.inr (.inr (.inl ⟨jt, jf, k, rfl, by simpa [exec, execRet] using h.symm⟩)))
  | unsupported opc jt jf k =>
    exact .inr (.inr (.inr (.inr ⟨opc, jt, jf, k, rfl, by simpa [exec, execUnsupported] using h.symm⟩)))

/-- No instruction stops the model: each has a next state, whatever the state and the operands. -/
theorem exec_answers_next (i : Instr) (s : State) : ∃ t, exec i s = .next t := by
  cases i with
  | ldabs jt jf k => by_cases h : s.offsetValid k = true <;> simp [exec, execLdabs, h]
  | ja jt jf k => exact ⟨_, rfl⟩
  | jeq jt jf k => exact ⟨_, rfl⟩
  | jgt jt jf k => exact ⟨_, rfl⟩
  | jge jt jf k => exact ⟨_, rfl⟩
  | ret jt jf k => exact ⟨_, rfl⟩
  | unsupported opc jt jf k => exact ⟨_, rfl⟩

/-! ## Inversion of step -/

/-- Everything a step can do when it answers a next state. -/
theorem step_cases {s t : State} (h : step s = .next t) :
    (s.start = true ∧ t = s.restart) ∨
    (s.start = false ∧ s.phase = .run ∧ s.inputs.progLen.toNat ≤ 4096 ∧
      s.inputs.progLen.toNat ≤ s.ip ∧ t = s.rangeError) ∨
    (s.start = false ∧ s.phase = .run ∧ s.inputs.progLen.toNat ≤ 4096 ∧
      s.ip < s.inputs.progLen.toNat ∧ exec s.fetched s.advance = .next t) := by
  unfold step at h
  by_cases hs : s.start = true
  · simp only [hs, if_true] at h
    exact .inl ⟨hs, by simpa using h.symm⟩
  · have hs' : s.start = false := by simpa using hs
    refine .inr ?_
    rw [hs'] at h
    cases hp : s.phase with
    | halt => simp [hp] at h
    | run =>
      simp only [hp] at h
      by_cases hl : s.progLenLegal = true
      · simp only [hl, if_true] at h
        by_cases hr : s.ipInRange = true
        · simp only [hr, if_true] at h
          exact .inr ⟨hs', rfl, progLenLegal_iff.1 hl, ipInRange_iff.1 hr, by simpa using h⟩
        · refine .inl ⟨hs', rfl, progLenLegal_iff.1 hl, ?_, by simpa [hr] using h.symm⟩
          exact Nat.le_of_not_lt fun hk => hr (ipInRange_iff.2 hk)
      · simp [hl] at h

end Sys2Proof.Machine
end

