-- ==== Sys2Proof/Laws/Invocation.lean ====
section
/-! SUPPORT. Everything an argument of the command line can ask, and everything a request to the builder can do, said
once. -/

namespace Sys2Proof.Machine

theorem archOfSelector_cases (n : Nat) :
    (n = 32 ∧ archOfSelector n = .ok .bits32) ∨ (n = 64 ∧ archOfSelector n = .ok .bits64) ∨
    ((n ≠ 32 ∧ n ≠ 64) ∧ archOfSelector n = .error (.usage .badArch)) := by
  unfold archOfSelector
  split
  · exact .inl ⟨‹_›, rfl⟩
  split
  · exact .inr (.inl ⟨‹_›, rfl⟩)
  · exact .inr (.inr ⟨⟨‹_›, ‹_›⟩, rfl⟩)

/-- What an argument asks, or the one error it can be. -/
theorem CommandArg.request_cases (a : CommandArg) :
    (a = .unrecognised ∧ a.request = .error (.usage .unrecognisedFlag)) ∨
    (∃ sel, a = .arch sel ∧ (sel ≠ 32 ∧ sel ≠ 64) ∧ a.request = .error (.usage .badArch)) ∨
    (a ≠ .unrecognised ∧ (∀ sel, a = .arch sel → sel = 32 ∨ sel = 64) ∧ ∃ q, a.request = .ok q) := by
  cases a with
  | unrecognised => exact .inl ⟨rfl, rfl⟩
  | number n => exact .inr (.inr ⟨by simp, by simp, _, rfl⟩)
  | arg i v => exact .inr (.inr ⟨by simp, by simp, _, rfl⟩)
  | arch sel =>
    obtain ⟨h, e⟩ | ⟨h, e⟩ | ⟨h, e⟩ := archOfSelector_cases sel
    · exact .inr (.inr ⟨by simp, by simp [h], .arch .bits32, by simp [CommandArg.request, e, Except.map]⟩)
    · exact .inr (.inr ⟨by simp, by simp [h], .arch .bits64, by simp [CommandArg.request, e, Except.map]⟩)
    · exact .inr (.inl ⟨sel, rfl, h, by simp [CommandArg.request, e, Except.map]⟩)

/-- Everything a request to the builder can do. -/
theorem SyscallRecord.apply_cases {r r' : SyscallRecord} {q : ContextRequest} (h : r.apply q = .ok r') :
    (∃ a, q = .arch a ∧ r.argSet = false ∧ r' = { r with arch := a }) ∨
    (∃ n, q = .number n ∧ r' = { r with number := n }) ∨
    (∃ i v, q = .arg i v ∧ r' = { r with args := r.args.set i.val v, argSet := true }) := by
  cases q with
  | arch a =>
    cases hs : r.argSet with
    | true => simp [SyscallRecord.apply, hs] at h
    | false => exact .inl ⟨a, rfl, rfl, by simpa [SyscallRecord.apply, hs] using h.symm⟩
  | number n => exact .inr (.inl ⟨n, rfl, by simpa [SyscallRecord.apply] using h.symm⟩)
  | arg i v => exact .inr (.inr ⟨i, v, rfl, by simpa [SyscallRecord.apply] using h.symm⟩)

end Sys2Proof.Machine
end

