-- ==== Sys2Proof/Laws/Memory.lean ====
section
/-! SUPPORT. The laws of memory: every operation keeps the canonical form, and what a read gives after a write. -/

namespace Sys2Proof.Machine

/-! ## The canonical form -/

theorem Memory.wfFrom_cons (lo x : Nat) (v : Byte) (rest : Memory) :
    Memory.wfFrom lo ((x, v) :: rest) = true ↔ lo ≤ x ∧ v ≠ 0#8 ∧ Memory.wfFrom (x + 1) rest = true := by
  simp [Memory.wfFrom, and_assoc]

theorem Memory.wfFrom_of_le {lo lo' : Nat} (h : lo ≤ lo') :
    ∀ {m : Memory}, Memory.wfFrom lo' m = true → Memory.wfFrom lo m = true
  | [], _ => rfl
  | (x, v) :: rest, hm => by
    obtain ⟨hx, hv, hr⟩ := (Memory.wfFrom_cons lo' x v rest).1 hm
    exact (Memory.wfFrom_cons lo x v rest).2 ⟨by omega, hv, hr⟩

theorem Memory.write_wfFrom (a : Nat) (b : Byte) :
    ∀ (m : Memory) (lo : Nat), lo ≤ a → Memory.wfFrom lo m = true → Memory.wfFrom lo (Memory.write m a b) = true
  | [], lo, ha, _ => by
    by_cases hb : b = 0#8
    · simp [Memory.write, hb, Memory.wfFrom]
    · simp [Memory.write, hb, Memory.wfFrom, ha]
  | (x, v) :: rest, lo, ha, hm => by
    obtain ⟨hx, hv, hr⟩ := (Memory.wfFrom_cons lo x v rest).1 hm
    by_cases h1 : a < x
    · by_cases hb : b = 0#8
      · simpa [Memory.write, h1, hb] using hm
      · simp only [Memory.write, h1, hb, if_true, if_false]
        exact (Memory.wfFrom_cons ..).2 ⟨ha, hb, (Memory.wfFrom_cons ..).2 ⟨by omega, hv, hr⟩⟩
    · by_cases h2 : a = x
      · by_cases hb : b = 0#8
        · simp only [Memory.write, h2, hb, if_true, if_false, lt_self_iff_false]
          exact Memory.wfFrom_of_le (by omega) hr
        · simp only [Memory.write, h2, hb, if_true, if_false, lt_self_iff_false]
          exact (Memory.wfFrom_cons ..).2 ⟨hx, hb, hr⟩
      · simp only [Memory.write, h1, h2, if_false]
        exact (Memory.wfFrom_cons ..).2 ⟨hx, hv, Memory.write_wfFrom a b rest (x + 1) (by omega) hr⟩

theorem Memory.write_wf {m : Memory} (h : m.wf = true) (a : Nat) (b : Byte) : (Memory.write m a b).wf = true :=
  Memory.write_wfFrom a b m 0 (Nat.zero_le a) h

theorem Memory.writeBytes_wf : ∀ (bs : List Byte) {m : Memory} (a : Nat),
    m.wf = true → (Memory.writeBytes m a bs).wf = true
  | [], _, _, h => h
  | b :: bs, _, a, h => Memory.writeBytes_wf bs (a + 1) (Memory.write_wf h a b)

theorem Memory.ofBytesAt_wfFrom : ∀ (bs : List Byte) (a : Nat), Memory.wfFrom a (Memory.ofBytesAt a bs) = true
  | [], _ => rfl
  | b :: bs, a => by
    have ih := Memory.ofBytesAt_wfFrom bs (a + 1)
    by_cases hb : b = 0#8
    · simpa [Memory.ofBytesAt, hb] using Memory.wfFrom_of_le (Nat.le_succ a) ih
    · simpa [Memory.ofBytesAt, hb, Memory.wfFrom] using ih

theorem Memory.ofBytesAt_wf (a : Nat) (bs : List Byte) : (Memory.ofBytesAt a bs).wf = true :=
  Memory.wfFrom_of_le (Nat.zero_le a) (Memory.ofBytesAt_wfFrom bs a)

theorem State.reset_prog_wf : State.reset.inputs.prog.wf = true := rfl

theorem State.reset_record_wf : State.reset.inputs.record.wf = true := rfl

/-- Placing a record keeps program memory canonical. -/
theorem State.placeRecord_wf {s : State} (h : s.inputs.prog.wf = true) (w : Insn) :
    (s.placeRecord w).inputs.prog.wf = true :=
  Memory.writeBytes_wf _ _ h

/-! ## Reading after writing -/

/-- Nothing is listed below the least address. -/
theorem Memory.read_below {lo a : Nat} (ha : a < lo) :
    ∀ {m : Memory}, Memory.wfFrom lo m = true → Memory.read m a = 0
  | [], _ => rfl
  | (x, v) :: rest, hm => by
    obtain ⟨hx, -, hr⟩ := (Memory.wfFrom_cons lo x v rest).1 hm
    have hne : x ≠ a := by omega
    simp only [Memory.read, hne, if_false]
    exact Memory.read_below (by omega) hr

theorem Memory.read_write_same (a : Nat) (b : Byte) :
    ∀ (m : Memory) (lo : Nat), Memory.wfFrom lo m = true → Memory.read (Memory.write m a b) a = b
  | [], _, _ => by by_cases hb : b = 0#8 <;> simp [Memory.write, Memory.read, hb]
  | (x, v) :: rest, lo, hm => by
    obtain ⟨-, -, hr⟩ := (Memory.wfFrom_cons lo x v rest).1 hm
    by_cases h1 : a < x
    · by_cases hb : b = 0#8
      · have hne : x ≠ a := by omega
        simp [Memory.write, h1, hb, Memory.read, hne, Memory.read_below (show a < x + 1 by omega) hr]
      · simp [Memory.write, h1, hb, Memory.read]
    · by_cases h2 : a = x
      · subst h2
        by_cases hb : b = 0#8
        · simp [Memory.write, hb, Memory.read_below (Nat.lt_succ_self a) hr]
        · simp [Memory.write, hb, Memory.read]
      · have hne : x ≠ a := fun h => h2 h.symm
        simp only [Memory.write, h1, h2, if_false, Memory.read, hne]
        exact Memory.read_write_same a b rest (x + 1) hr

theorem Memory.read_write_ne {a c : Nat} (hc : c ≠ a) (b : Byte) :
    ∀ m : Memory, Memory.read (Memory.write m a b) c = Memory.read m c
  | [] => by by_cases hb : b = 0#8 <;> simp [Memory.write, Memory.read, hb, hc.symm]
  | (x, v) :: rest => by
    by_cases h1 : a < x
    · by_cases hb : b = 0#8 <;> simp [Memory.write, h1, hb, Memory.read, hc.symm]
    · by_cases h2 : a = x
      · subst h2
        by_cases hb : b = 0#8 <;> simp [Memory.write, hb, Memory.read, hc.symm]
      · simp only [Memory.write, h1, h2, if_false, Memory.read, Memory.read_write_ne hc b rest]

/-- Bytes written from `a` on are read back there, and every other address is left alone. -/
theorem Memory.read_writeBytes : ∀ (bs : List Byte) (m : Memory) (a c : Nat), m.wf = true →
    Memory.read (Memory.writeBytes m a bs) c
      = if a ≤ c ∧ c < a + bs.length then bs.getD (c - a) 0#8 else Memory.read m c
  | [], m, a, c, _ => by
    have h : ¬ (a ≤ c ∧ c < a) := by omega
    simp [Memory.writeBytes, h]
  | b :: bs, m, a, c, hm => by
    rw [Memory.writeBytes, Memory.read_writeBytes bs _ _ _ (Memory.write_wf hm a b), List.length_cons]
    by_cases hac : c = a
    · subst hac
      have h1 : ¬ (c + 1 ≤ c ∧ c < c + 1 + bs.length) := by omega
      have h2 : c ≤ c ∧ c < c + (bs.length + 1) := by omega
      rw [if_neg h1, if_pos h2, Memory.read_write_same c b m 0 hm, Nat.sub_self]
      rfl
    · rw [Memory.read_write_ne hac]
      by_cases h1 : a + 1 ≤ c ∧ c < a + 1 + bs.length
      · have h2 : a ≤ c ∧ c < a + (bs.length + 1) := by omega
        have e : c - a = (c - (a + 1)) + 1 := by omega
        rw [if_pos h1, if_pos h2, e, List.getD_cons_succ]
      · have h2 : ¬ (a ≤ c ∧ c < a + (bs.length + 1)) := by omega
        rw [if_neg h1, if_neg h2]

/-- The loaded bytes are read back where they were put, and every other address reads as 0. -/
theorem Memory.read_ofBytesAt : ∀ (bs : List Byte) (a c : Nat),
    Memory.read (Memory.ofBytesAt a bs) c = if a ≤ c then bs.getD (c - a) 0#8 else 0#8
  | [], a, c => by simp [Memory.ofBytesAt, Memory.read]
  | b :: bs, a, c => by
    have ih := Memory.read_ofBytesAt bs (a + 1) c
    have step : Memory.read (Memory.ofBytesAt a (b :: bs)) c
        = if a = c then b else Memory.read (Memory.ofBytesAt (a + 1) bs) c := by
      by_cases hb : b = 0#8
      · by_cases hac : a = c
        · subst hac
          simp only [Memory.ofBytesAt, hb, if_true]
          exact Memory.read_below (Nat.lt_succ_self a) (Memory.ofBytesAt_wfFrom bs (a + 1))
        · simp [Memory.ofBytesAt, hb, hac]
      · simp [Memory.ofBytesAt, hb, Memory.read]
    rw [step, ih]
    by_cases hac : a = c
    · simp [hac]
    · by_cases hle : a ≤ c
      · have e : c - a = (c - (a + 1)) + 1 := by omega
        have hle' : a + 1 ≤ c := by omega
        simp [hac, hle, hle', e]
      · have hle' : ¬ a + 1 ≤ c := by omega
        simp [hac, hle, hle']

end Sys2Proof.Machine
end

