-- ==== Sys2Proof/Laws/PerInstr.lean ====
section
/-! SUPPORT. Statements for all instructions, one lemma per constructor. -/

namespace Sys2Proof.Laws.Fields

/-- The record of an instruction holds its opcode and its three operand fields, each at the place 30_encoding.md R60
gives it. -/
def Statement (i : Instr) : Prop :=
  ∀ c : Config, opcOf (encode c i) = i.opcode c ∧ jtOf (encode c i) = i.jtField ∧ jfOf (encode c i) = i.jfField ∧
    kOf (encode c i) = i.kField

/-- True of any instruction, since every one has the one format. -/
theorem of_encode (i : Instr) : Statement i := fun c => by simp [encode]

theorem ldabs (jt jf : Byte) (k : Word) : Statement (.ldabs jt jf k) := of_encode _

theorem ja (jt jf : Byte) (k : Word) : Statement (.ja jt jf k) := of_encode _

theorem jeq (jt jf : Byte) (k : Word) : Statement (.jeq jt jf k) := of_encode _

theorem jgt (jt jf : Byte) (k : Word) : Statement (.jgt jt jf k) := of_encode _

theorem jge (jt jf : Byte) (k : Word) : Statement (.jge jt jf k) := of_encode _

theorem ret (jt jf : Byte) (k : Word) : Statement (.ret jt jf k) := of_encode _

theorem unsupported (opc : Half) (jt jf : Byte) (k : Word) : Statement (.unsupported opc jt jf k) := of_encode _

end Sys2Proof.Laws.Fields
end

