-- ==== Sys2Proof/Laws/Run.lean ====
section
/-! SUPPORT. Running `core` for several steps. -/

namespace Sys2Proof.Machine

theorem run_succ_of_next {s t : State} (h : step s = .next t) (n : Nat) :
    Host.Core.run core (n + 1) s = Host.Core.run core n t := by
  have h' : core.step s = .next t := h
  simp only [Host.Core.run]
  rw [h']

theorem run_succ_of_fault {s : State} {f : Fault} (h : step s = .fault f) (n : Nat) :
    Host.Core.run core (n + 1) s = .fault f := by
  have h' : core.step s = .fault f := h
  simp only [Host.Core.run]
  rw [h']

end Sys2Proof.Machine
end

