-- ==== Sys2Proof/Tests/Slice0.lean ====
section
/-! SUPPORT. The model's own tests. Expected results are those of spec/95_test_vectors.md (named in each comment) or worked
out by hand from the rule named; and, for every statement with hypotheses, a state and operands that meet them. -/

namespace Sys2Proof.Tests

open Sys2Proof.Machine

/-! ## Helpers -/

/-- A state at reset with a program, a tag and a record image loaded. -/
def loaded (a : Arch) (p : List AsmLine) (image : List Byte) : State :=
  { State.reset with inputs := {
      arch := a
      progLen := BitVec.ofNat 13 p.length
      prog := Memory.ofBytesAt 0 (assemble defaultConfig p)
      record := Memory.ofBytesAt 0 image } }

/-- A field of the next state, if there is one. -/
def after {α : Type} (o : Host.Outcome State Fault Refusal) (f : State → α) : Option α :=
  match o with
  | .next s => some (f s)
  | .fault _ => none
  | .refused _ => none

/-- `rec32(57; 1, 2, 3, 4, 5, 0xaabbccdd)` of 95_test_vectors.md. -/
def r32 : List Byte :=
  [0x39, 0, 0, 0, 1, 0, 0, 0, 2, 0, 0, 0, 3, 0, 0, 0, 4, 0, 0, 0, 5, 0, 0, 0, 0xdd, 0xcc, 0xbb, 0xaa]

/-- The first 16 bytes of `rec64(57; 0x1122334455667788)` of 95_test_vectors.md; the others are 0. -/
def r64 : List Byte := [0x39, 0, 0, 0, 0, 0, 0, 0, 0x88, 0x77, 0x66, 0x55, 0x44, 0x33, 0x22, 0x11]

/-- A state about to dispatch the instruction at index 10, with a given `A`. -/
def at10 (acc : Word) : State := { loaded .bits32 [] r32 with acc := acc, ip := 11, pos := 10 }

/-! ## Well-formedness: the one check refuses -/

theorem test_unsupported_with_claimed_opcode_is_ill_formed :
    (Instr.unsupported 0x0006 0 0 0).wf defaultConfig = false := by decide

theorem test_unsupported_with_free_opcode_is_well_formed :
    (Instr.unsupported 0x0106 0 0 0).wf defaultConfig = true := by decide

theorem test_config_with_equal_opcodes_is_ill_formed :
    ({ defaultConfig with opcJa := 0x0006 } : Config).wf = false := by decide

/-- D1: "Any `IP_BITS` must be at least 13 so that 4096 fits." -/
theorem test_config_with_narrow_ip_is_ill_formed :
    ({ defaultConfig with ipBits := 12 } : Config).wf = false ∧ ({ defaultConfig with ipBits := 13 } : Config).wf = true := by
  decide

/-! ## Decoding words written out in 95_test_vectors.md -/

/-- V-E1. -/
theorem test_decode_ldabs : decodeTableWord 64 0x0000001c00000020 = some (.ldabs 0 0 28) := by decide

/-- V-E2. -/
theorem test_decode_ja : decodeTableWord 64 0xffffffff00000005 = some (.ja 0 0 0xffffffff) := by decide

/-- V-E3. -/
theorem test_decode_jeq : decodeTableWord 64 0x00000000ffff0015 = some (.jeq 0xff 0xff 0) := by decide

/-- V-E4. -/
theorem test_decode_jgt : decodeTableWord 64 0x0000000603020025 = some (.jgt 2 3 6) := by decide

/-- V-E5. -/
theorem test_decode_jge : decodeTableWord 64 0x0000000201000035 = some (.jge 0 1 2) := by decide

/-- V-E9: `jt` and `jf` of a RET are ignored. -/
theorem test_decode_ret : decodeTableWord 64 0x0000000009070006 = some (.ret 7 9 0) := by decide

/-- V-E8: the high byte of the opcode counts. -/
theorem test_decode_unsupported : decodeTableWord 64 0x0000000000000106 = some (.unsupported 0x0106 0 0 0) := by decide

/-- V-E10: the all-zero word. -/
theorem test_decode_zero : decodeTableWord 64 0 = some (.unsupported 0 0 0 0) := by decide

/-- V-E6 under the other byte order: `00 06 00 00 00 03 00 26`. -/
theorem test_bytes_big_endian :
    encodeBytes { defaultConfig with byteOrder := .big } (.ret 0 0 0x00030026)
      = [0x00, 0x06, 0x00, 0x00, 0x00, 0x03, 0x00, 0x26] := by decide

/-- V-E4: `25 00 02 03 06 00 00 00`. -/
theorem test_bytes_little_endian :
    assemble defaultConfig [.jgt 6 2 3] = [0x25, 0x00, 0x02, 0x03, 0x06, 0x00, 0x00, 0x00] := by decide

/-- A record that ends early is rejected by name (20_memory.md R45). -/
theorem test_decode_partial_record :
    (match decodeBytes defaultConfig [0x06, 0, 0, 0, 0, 0, 0] with
      | .ok _ => false
      | .error e => e == DecodeError.partialRecord) = true := by decide

/-! ## Instructions -/

/-- V-L3: the low byte of argument 5, the upper 24 bits of `A` cleared. -/
theorem test_ldabs_clears_upper_bits :
    after (exec (.ldabs 0 0 24) (at10 0xffffffff)) State.acc = some 0x000000dd := by decide

/-- V-L5: the first invalid offset under `ARCH` = 0. -/
theorem test_ldabs_first_invalid_offset :
    after (exec (.ldabs 0 0 28) (at10 7)) (fun s => (s.outcome, s.acc, s.out.cause))
      = some (some (.programError .outOfRange 10), 7, 1) := by decide

/-- V-J4: a backward jump by wraparound. -/
theorem test_ja_wraps : after (exec (.ja 0 0 0xfffffff5) (at10 0)) State.ip = some 0 := by decide

/-- 30_encoding.md R64, narrower: `trunc_13(0x0000fff5)` is 0x1ff5, and 11 + 0x1ff5 is 0 modulo 2^13. -/
theorem test_ja_truncates_its_distance :
    after (exec (.ja 0 0 0x0000fff5) { at10 0 with cfg := { defaultConfig with ipBits := 13 } }) State.ip = some 0 := by
  decide

/-- 30_encoding.md R64, wider: with 33 bits the distance is zero-extended and does not wrap. -/
theorem test_ja_zero_extends_its_distance :
    after (exec (.ja 0 0 0xfffffff5) { at10 0 with cfg := { defaultConfig with ipBits := 33 } }) State.ip
      = some 0x100000000 := by decide

/-- V-J10: all 32 bits are compared. -/
theorem test_jeq_compares_all_bits : after (exec (.jeq 2 3 0x00000105) (at10 5)) State.ip = some 14 := by decide

/-- V-J6. -/
theorem test_jeq_equal : after (exec (.jeq 2 3 5) (at10 5)) State.ip = some 13 := by decide

/-- V-J13: not the conventional `A > k`. -/
theorem test_jgt_constant_on_the_left : after (exec (.jgt 2 3 4) (at10 5)) State.ip = some 14 := by decide

/-- V-J15: unsigned. -/
theorem test_jgt_unsigned : after (exec (.jgt 2 3 0x80000000) (at10 1)) State.ip = some 13 := by decide

/-- V-J17. -/
theorem test_jge_equal : after (exec (.jge 2 3 5) (at10 5)) State.ip = some 13 := by decide

/-- V-J18. -/
theorem test_jge_below : after (exec (.jge 2 3 4) (at10 5)) State.ip = some 14 := by decide

/-- V-R7, with the outputs of 10_state.md R18. -/
theorem test_ret_errno :
    after (exec (.ret 0 0 0x00030026) (at10 5)) (fun s => (s.outcome, s.out.status, s.out.disp, s.out.errno, s.ip))
      = some (some (.ok 0x00030026 (.errnoReturn 38)), 1, 3, 38, 11) := by decide

/-- V-R5: an undefined action reports the RET. -/
theorem test_ret_undefined :
    after (exec (.ret 0 0 0x00020001) (at10 5)) (fun s => (s.outcome, s.out.status, s.out.cause, s.out.action))
      = some (some (.programError .undefinedAction 10), 3, 2, 0x00020001) := by decide

/-- V-U4. -/
theorem test_unsupported_faults :
    after (exec (.unsupported 0xffff 255 255 0xffffffff) (at10 5)) (fun s => (s.outcome, s.phase, s.out.status, s.out.cause))
      = some (some (.fault .notImplemented), .halt, 2, 3) := by decide

/-! ## The step -/

/-- V-L8, as the first step of a run under `ARCH` = 1. -/
theorem test_step_ldabs_64 :
    after (step (loaded .bits64 [.ldabs 15] r64)) (fun s => (s.acc, s.ip, s.pos)) = some (0x11, 1, 0) := by decide

/-- V-C1: the empty program ends at once, at position 0. -/
theorem test_step_empty_program :
    after (step State.reset) (fun s => (s.outcome, s.ip, s.posOut))
      = some (some (.programError .outOfRange 0), 0, 0) := by decide

/-- V-C6: `JA 0xffffffff` jumps to itself. -/
theorem test_step_ja_to_itself :
    after (step (loaded .bits32 [.ja 0xffffffff] [])) (fun s => (s.ip, s.pos, s.phase)) = some (0, 0, .run) := by decide

/-- V-C4, second step: the position is that of the jump, not the destination. -/
theorem test_step_reports_jump_not_destination :
    after (step { loaded .bits32 [.ja 0xfffffffe, .ret 0] [] with ip := 0xffffffff, pos := 0 }) State.outcome
      = some (some (.programError .outOfRange 0)) := by decide

/-- The host's window: a RET placed after reset is the first instruction that runs. -/
theorem test_withFetchWord_runs :
    after (step (State.reset.withFetchWord 64 0x7fff000000000006)) State.outcome
      = some (some (.ok 0x7fff0000 .allow)) := by decide

/-! ## The loader, the context builder and the report -/

/-- V-H4: 15 bytes load as one instruction. -/
theorem test_load_drops_dangling_bytes :
    (match loadProgram (.stream (List.replicate 15 6)) with
      | .ok p => p.len.toNat
      | .error _ => 0) = 1 := by decide

/-- 20_memory.md R51. -/
theorem test_arch_after_argument :
    (match buildContext [.arg 0 7, .arch .bits64] with
      | .ok _ => none
      | .error e => some e) = some (.usage .archAfterArgument) := by decide

/-- 60_exceptions.md R144: the three usage errors of the command line. -/
theorem test_usage_errors :
    [Invocation.mk [.unrecognised] (some (.stream [])), ⟨[.arch 16], some .unreadable⟩, ⟨[.arch 64], none⟩].map
      (fun inv => match boot defaultConfig inv with
        | .ok _ => none
        | .error e => some (e, preRunExitCode defaultConfig e))
      = [some (.usage .unrecognisedFlag, 22), some (.usage .badArch, 22), some (.usage .missingFile, 22)] := by decide

/-- `rec32(57; 1, 2, 3, 4, 5, 0xaabbccdd)` byte by byte. -/
theorem test_image_32 :
    (match buildContext [.number 57, .arg 0 1, .arg 1 2, .arg 2 3, .arg 3 4, .arg 4 5, .arg 5 0xaabbccdd] with
      | .ok r => r.image
      | .error _ => []) = r32 := by decide

/-- `rec64(57; 0x1122334455667788)`: 16 bytes as given, then 40 zero bytes. -/
theorem test_image_64 :
    (match buildContext [.arch .bits64, .number 57, .arg 0 0x1122334455667788] with
      | .ok r => r.image
      | .error _ => []) = r64 ++ List.replicate 40 0 := by decide

/-- 60_exceptions.md R142: `Kill` exits 0 as `Allow` does. -/
theorem test_exit_codes :
    (exitCode defaultConfig (.ok 0 .kill), exitCode defaultConfig (.fault .notImplemented),
      exitCode defaultConfig (.programError .outOfRange 3)) = (0, 14, 8) := by decide

/-! ## Witnesses: the hypotheses of each statement can be met -/

/-- A state that loops, at index 0 of a program of one line. -/
theorem looping_loaded (a : Arch) (l : AsmLine) (image : List Byte) : (loaded a [l] image).Looping :=
  ⟨rfl, rfl, by show (1#13).toNat ≤ 4096; decide⟩

theorem test_meets_DecodeOfEncodedBytes :
    defaultConfig.wf = true ∧ (Instr.jgt 255 0 0xffffffff).wf defaultConfig = true ∧
      (Instr.unsupported 0xffff 1 2 3).wf defaultConfig = true := by decide

theorem test_meets_DecodeSelectsByWholeOpcode :
    defaultConfig.wf = true ∧ opcOf (0x0000000009070006 : Insn) = opcOf (0x0000000000000006 : Insn) := by decide

theorem test_meets_CanonicalMemoryIsItsReads :
    Memory.wf [(3, 5), (4, 1)] = true ∧ ∀ a, Memory.read [(3, 5), (4, 1)] a = Memory.read [(3, 5), (4, 1)] a :=
  ⟨by decide, fun _ => rfl⟩

/-- 4096 whole records and seven dangling bytes (V-H6). -/
theorem test_meets_LoaderReadsWholeRecords : (List.replicate 32775 (0 : Byte)).length / 8 ≤ 4096 := by
  rw [List.length_replicate]

theorem test_meets_LoaderReadsWholeRecords_index :
    ∃ (p : Program) (s : State), loadProgram (.stream (List.replicate 16 6)) = .ok p ∧ s.inputs.prog = p.mem ∧
      1 < p.len.toNat :=
  ⟨_, { State.reset with inputs := { Inputs.empty with prog := _ } }, rfl, rfl, by decide⟩

theorem test_meets_LoaderDropsDanglingBytes :
    (4096 : Nat) ≤ 4096 ∧ (List.replicate 32768 (0 : Byte)).length = 8 * 4096 ∧
      (List.replicate 7 (0 : Byte)).length < 8 := by
  rw [List.length_replicate, List.length_replicate]; omega

/-- V-H6 and V-H7: the two sides of the limit. -/
theorem test_meets_LoaderFailsExactlyBeyondItsLimits :
    32776 ≤ (List.replicate 32776 (0 : Byte)).length ∧ ¬ 32776 ≤ (List.replicate 32775 (0 : Byte)).length := by
  rw [List.length_replicate, List.length_replicate]; omega

theorem test_meets_RecordImageLayout :
    SyscallRecord.default.arch = .bits32 ∧ ({ SyscallRecord.default with arch := .bits64 } : SyscallRecord).arch = .bits64 :=
  ⟨rfl, rfl⟩

theorem test_meets_UnspecifiedContextIsDefault :
    (∃ r, buildContext [] = .ok r) ∧ (∀ a, ContextRequest.arch a ∉ []) ∧ (∀ n, ContextRequest.number n ∉ []) ∧
      ∀ v, ContextRequest.arg 5 v ∉ [] :=
  ⟨⟨_, rfl⟩, by simp, by simp, by simp⟩

theorem test_meets_ArchAfterArgumentIsUsageError :
    ∃ r, buildContext ([.arch .bits64] ++ .arg 5 9 :: [.number 3]) = .ok r := ⟨_, rfl⟩

/-- One invocation for each clause: an unrecognised flag with a valid selector, a selector between the two valid ones with no
such flag, no file with neither. -/
theorem test_meets_MalformedInvocationIsUsageError :
    (CommandArg.unrecognised ∈ [.unrecognised, .arch 64] ∧
        ∀ sel, CommandArg.arch sel ∈ [.unrecognised, .arch 64] → sel = 32 ∨ sel = 64) ∧
      (CommandArg.unrecognised ∉ [.arch 33] ∧ ∃ sel, CommandArg.arch sel ∈ [.arch 33] ∧ sel ≠ 32 ∧ sel ≠ 64) ∧
      (CommandArg.unrecognised ∉ [.arch 32] ∧ (∀ sel, CommandArg.arch sel ∈ [.arch 32] → sel = 32 ∨ sel = 64) ∧
        (Invocation.mk [.arch 32] none).file = none) ∧
      ∃ e, (Invocation.mk [.arch 32] none).check = .error e :=
  ⟨by simp, ⟨by simp, 33, by simp⟩, by simp, _, rfl⟩

theorem test_meets_BootedRunIsReady :
    defaultConfig.wf = true ∧ ∃ qs p r, requestsOf [.arch 64, .number 57, .arg 5 1] = .ok qs ∧
      loadProgram (.stream (assemble defaultConfig [.ret 0])) = .ok p ∧ buildContext qs = .ok r :=
  ⟨by decide, _, _, _, rfl, rfl, rfl⟩

theorem test_meets_StartNeedsEveryPart :
    ∃ s, boot defaultConfig ⟨[.number 57], some (.stream (assemble defaultConfig [.ret 0]))⟩ = .ok s := ⟨_, rfl⟩

theorem test_meets_PlacedRecordRunsNext :
    State.reset.inputs.prog.wf = true ∧ (loaded .bits32 [.ja 5] []).inputs.prog.wf = true := by decide

theorem test_meets_StartResetsEngine : ({ at10 5 with start := true, phase := .halt } : State).start = true := rfl

theorem test_meets_StepRunsDecodedInstruction :
    (loaded .bits32 [.ja 5] []).Looping ∧
      (loaded .bits32 [.ja 5] []).ip < (loaded .bits32 [.ja 5] []).inputs.progLen.toNat ∧
      decodeBytes (loaded .bits32 [.ja 5] []).cfg ((List.range 8).map fun j =>
        Memory.read (loaded .bits32 [.ja 5] []).inputs.prog (8 * (loaded .bits32 [.ja 5] []).ip + j))
        = .ok (.ja 0 0 5, []) :=
  ⟨looping_loaded _ _ _, by decide, rfl⟩

/-- The first index beyond the program. -/
theorem test_meets_RangeTestFailureEndsRun :
    ({ loaded .bits32 [.ja 5] [] with ip := 1 } : State).Looping ∧
      ({ loaded .bits32 [.ja 5] [] with ip := 1 } : State).inputs.progLen.toNat
        ≤ ({ loaded .bits32 [.ja 5] [] with ip := 1 } : State).ip :=
  ⟨⟨rfl, rfl, by decide⟩, by decide⟩

theorem test_meets_EveryOutcomeIsFinal :
    State.reset.start = false ∧ State.reset.outcome = none ∧
      ∃ t, step State.reset = .next t ∧ t.outcome ≠ none := ⟨rfl, rfl, _, rfl, by decide⟩

theorem test_meets_StepStopsExactlyWhere_halted :
    step { State.reset with phase := .halt } = .fault .halted := rfl

/-- The two sides of the bound on `PROG_LEN`. -/
theorem test_meets_StepStopsExactlyWhere_refused :
    step { State.reset with inputs := { Inputs.empty with progLen := 4097 } } = .refused .progLenAboveMax ∧
      ({ State.reset with inputs := { Inputs.empty with progLen := 4096 } } : State).Looping :=
  ⟨rfl, rfl, rfl, by decide⟩

theorem test_meets_StepKeepsRunInv :
    State.reset.RunInv ∧ ∃ t, step State.reset = .next t :=
  ⟨⟨by decide, ⟨by decide, by decide⟩, by show (0#32).toNat ≤ 255; decide, rfl, .inr rfl, ⟨rfl, rfl⟩, trivial, rfl, rfl⟩, _, rfl⟩

theorem test_meets_StepNeverWritesMemory : State.reset.start = false ∧ ∃ t, step State.reset = .next t := ⟨rfl, _, rfl⟩

theorem test_meets_PosNamesFetchedInstruction_in_range :
    (loaded .bits32 [.ja 5] []).start = false ∧ (∃ t, step (loaded .bits32 [.ja 5] []) = .next t) ∧
      (loaded .bits32 [.ja 5] []).ip < (loaded .bits32 [.ja 5] []).inputs.progLen.toNat :=
  ⟨rfl, ⟨_, rfl⟩, by decide⟩

theorem test_meets_PosNamesFetchedInstruction_out_of_range :
    State.reset.inputs.progLen.toNat ≤ State.reset.ip := by decide

/-- For the statements about a step in range: one program line of each form that the statements name. -/
theorem test_meets_step_in_range (a : Arch) (l : AsmLine) (image : List Byte) :
    (loaded a [l] image).Looping ∧ (loaded a [l] image).outcome = none ∧
      (loaded a [l] image).ip < (loaded a [l] image).inputs.progLen.toNat :=
  ⟨looping_loaded a l image, rfl, by show 0 < (1#13).toNat; decide⟩

theorem test_meets_AdvanceComesBeforeDispatch :
    13 ≤ defaultConfig.ipBits ∧
      (loaded .bits32 [.ldabs 27] r32).fetched = .ldabs 0 0 27 ∧ (loaded .bits32 [.ja 1] []).fetched = .ja 0 0 1 ∧
      (loaded .bits32 [.jeq 0 255 0] []).fetched = .jeq 255 0 0 ∧ (loaded .bits32 [.ret 1] []).fetched = .ret 0 0 1 ∧
      (loaded .bits32 [.jgt 1 0 255] []).fetched = .jgt 0 255 1 ∧ (loaded .bits32 [.jge 1 0 255] []).fetched = .jge 0 255 1 ∧
      (loaded .bits32 [.insn 0x16 0 0 0] []).fetched = .unsupported 0x16 0 0 0 := by decide

theorem test_meets_OutcomeOfEachStep :
    State.reset.outcome = none ∧ State.reset.inputs.progLen.toNat ≤ State.reset.ip ∧
      Disposition.OfCode .allow 0x7fff0000 ∧ ¬ (0x1c : Word).toNat < State.reset.maxOff ∧
      (0x1b : Word).toNat < State.reset.maxOff :=
  ⟨rfl, by decide, rfl, by decide, by decide⟩

theorem test_meets_ReturnIsTheOnlyNormalEnd :
    (∃ t, step (loaded .bits32 [.ret 0x0003ffff] []) = .next t ∧
      t.outcome = some (.ok 0x0003ffff (.errnoReturn 0xffff))) ∧
      Disposition.OfCode (.errnoReturn 0xffff) 0x0003ffff :=
  ⟨⟨_, rfl, by decide⟩, by show (0x0003ffff#32).toNat = 0x00030000 + (0xffff#16).toNat; decide⟩

/-- A program whose one instruction is a JA that does not wrap. -/
theorem test_meets_NoWrappingJaMeansTermination :
    13 ≤ (loaded .bits32 [.ja 5] []).cfg.ipBits ∧ (loaded .bits32 [.ja 5] []).Looping ∧
      ∀ (i : Nat) (jt jf : Byte) (k : Word), i < (loaded .bits32 [.ja 5] []).inputs.progLen.toNat →
        decodeWord (loaded .bits32 [.ja 5] []).cfg ((loaded .bits32 [.ja 5] []).progRead i) = .ja jt jf k →
        i + 1 + k.toNat % 2 ^ (loaded .bits32 [.ja 5] []).cfg.ipBits < 2 ^ (loaded .bits32 [.ja 5] []).cfg.ipBits := by
  refine ⟨by decide, looping_loaded _ _ _, fun i jt jf k hi h => ?_⟩
  have hlen : (loaded .bits32 [.ja 5] []).inputs.progLen.toNat = 1 := rfl
  obtain rfl : i = 0 := by omega
  have hd : decodeWord (loaded .bits32 [.ja 5] []).cfg ((loaded .bits32 [.ja 5] []).progRead 0) = .ja 0 0 5 := by decide
  rw [hd] at h
  obtain ⟨-, -, rfl⟩ : 0 = jt ∧ 0 = jf ∧ 5 = k := by simpa using h
  decide

/-- Another cell beyond each extent changes no byte within it. -/
theorem test_meets_StepReadsOnlyItsExtents :
    (∀ a, a < 8 * State.reset.inputs.progLen.toNat → Memory.read [(40, 7)] a = Memory.read State.reset.inputs.prog a) ∧
      (∀ a, a < State.reset.maxOff → Memory.read [(40, 7)] a = Memory.read State.reset.inputs.record a) ∧
      ∃ t, step State.reset = .next t :=
  ⟨by decide, by decide, _, rfl⟩

/-- The last valid and the first invalid offset under each tag. -/
theorem test_meets_Ldabs_bounds :
    (27 : Word).toNat < (loaded .bits32 [] r32).maxOff ∧ (loaded .bits32 [] r32).maxOff ≤ (28 : Word).toNat ∧
      (55 : Word).toNat < (loaded .bits64 [] r64).maxOff ∧ (loaded .bits64 [] r64).maxOff ≤ (56 : Word).toNat := by decide

theorem test_meets_AccWrittenOnlyByLoad :
    ∃ t, exec (.ldabs 0 0 24) (at10 5) = .next t ∧ t.acc ≠ (at10 5).acc := ⟨_, rfl, by decide⟩

/-- Offset 28 is valid under the 64-bit tag alone, offset 27 under both. -/
theorem test_meets_ArchActsThroughMaxOffOnly :
    (28 : Word).toNat < (loaded .bits64 [] r64).maxOff ∧ (loaded .bits32 [] r64).maxOff ≤ (28 : Word).toNat ∧
      ((27 : Word).toNat < (loaded .bits64 [] r64).maxOff ↔ (27 : Word).toNat < (loaded .bits32 [] r64).maxOff) := by decide

/-- JEQ, JGT and JGE at `k` = `A` and one to either side of it. -/
theorem test_meets_compares :
    (at10 5).acc.toNat = (5 : Word).toNat ∧ (at10 5).acc.toNat ≠ (6 : Word).toNat ∧
      (6 : Word).toNat > (at10 5).acc.toNat ∧ (5 : Word).toNat ≤ (at10 5).acc.toNat ∧
      (5 : Word).toNat ≥ (at10 5).acc.toNat ∧ (4 : Word).toNat < (at10 5).acc.toNat := by decide

theorem test_meets_ConditionalJumpsGoForward :
    13 ≤ (loaded .bits32 [.jeq 0 255 0] []).cfg.ipBits ∧ (loaded .bits32 [.jeq 0 255 0] []).Looping ∧
      decodeWord (loaded .bits32 [.jeq 0 255 0] []).cfg
        ((loaded .bits32 [.jeq 0 255 0] []).progRead (loaded .bits32 [.jeq 0 255 0] []).ip)
        ∈ [Instr.jeq 255 0 0, Instr.jgt 255 0 0, Instr.jge 255 0 0] :=
  ⟨by decide, looping_loaded _ _ _, by decide⟩

/-- The target 0xffffffff with 32 bits, the JA itself, the target 4096 with 13 bits, and the two sides of 32 bits. -/
theorem test_meets_JaReachesAnyTarget :
    (loaded .bits32 [.ja 0xfffffffe] []).fetched = .ja 0 0 0xfffffffe ∧
      (0xfffffffe : Word).toNat % 2 ^ 32 = (0xffffffff + 2 ^ 32 - 0 - 1) % 2 ^ 32 ∧ 0xffffffff < 2 ^ 32 ∧
      (loaded .bits32 [.ja 0xffffffff] []).fetched = .ja 0 0 0xffffffff ∧
      (0xffffffff : Word).toNat % 2 ^ 32 = (0 + 2 ^ 32 - 0 - 1) % 2 ^ 32 ∧
      (0x00000fff : Word).toNat % 2 ^ 13 = (4096 + 2 ^ 13 - 0 - 1) % 2 ^ 13 ∧
      ({ defaultConfig with ipBits := 13 } : Config).wf = true ∧
      defaultConfig.ipBits ≤ 32 ∧ 32 < ({ defaultConfig with ipBits := 33 } : Config).ipBits := by decide

/-- The classifier at the codes where its clauses meet (V-R1 to V-R15). -/
theorem test_classifier_boundaries :
    [0x00000000, 0x00000001, 0x0000ffff, 0x00020000, 0x00020001, 0x0002ffff, 0x00030000, 0x0003ffff, 0x00040000,
      0x7ffe0000, 0x7fff0000, 0x7fff0001, 0x7fffffff, 0xffffffff].map (fun k => (classify k 9).dispCode)
      = [1, 0, 0, 2, 0, 0, 3, 3, 0, 0, 4, 0, 0, 0] := by decide

/-- The half-word clauses of Kill, Trap and Allow, and the undefined codes, have codes that meet them. -/
theorem test_meets_undefined_codes :
    ((1 : Word).toNat / 2 ^ 16 = 0 ∧ (1 : Word).toNat % 2 ^ 16 ≠ 0) ∧
      (0x00020001 ≤ (0x00020001 : Word).toNat ∧ (0x0002ffff : Word).toNat ≤ 0x0002ffff) ∧
      (0x7fff0001 ≤ (0x7fff0001 : Word).toNat ∧ (0x7fffffff : Word).toNat ≤ 0x7fffffff) ∧
      (0x0003ffff : Word).toNat / 2 ^ 16 = 3 := by decide

theorem test_meets_undefined_action (d : Disposition) : ¬ d.OfCode 0x00040000 := by
  cases d with
  | kill => show ¬ (0x00040000#32 = 0x00000000#32); decide
  | trap => show ¬ (0x00040000#32 = 0x00020000#32); decide
  | errnoReturn e =>
    have h := e.isLt
    show ¬ ((0x00040000#32).toNat = 0x00030000 + e.toNat)
    simp only [BitVec.toNat_ofNat]
    omega
  | allow => show ¬ (0x00040000#32 = 0x7fff0000#32); decide

theorem test_meets_UnclaimedOpcodeFaults :
    opcOf ((loaded .bits32 [.insn 0x0106 0 0 0] []).progRead 0) ∉ defaultConfig.opcodes := by decide

/-- Two records that differ only in fields their instruction ignores, one for a RET and one for an unclaimed opcode. -/
theorem test_meets_UnusedFieldsAreIgnored :
    opcOf (0x0000000009070006 : Insn) = opcOf (0x0000000000000006 : Insn) ∧
      opcOf (0x0000000000000006 : Insn) = defaultConfig.opcRet ∧
      kOf (0x0000000009070006 : Insn) = kOf (0x0000000000000006 : Insn) ∧
      opcOf (0xffffffffffff0016 : Insn) = opcOf (0x0000000000000016 : Insn) ∧
      opcOf (0x0000000000000016 : Insn) ∉ defaultConfig.opcodes := by decide

theorem test_meets_FrameOfEveryInstruction : ∃ t, exec (.ja 0 0 5) (at10 5) = .next t := ⟨_, rfl⟩

theorem test_meets_ReportFollowsOutcome :
    defaultConfig.exitFault ≠ 0 ∧ defaultConfig.exitError ≠ 0 ∧
      (∃ f, RunOutcome.fault .notImplemented = .fault f) ∧
      ∃ e p, RunOutcome.programError .outOfRange 3 = .programError e p := ⟨by decide, by decide, ⟨_, rfl⟩, _, _, rfl⟩

end Sys2Proof.Tests
end

/-! Who writes `pos` and who writes `A` (10_state.md R11, R13). -/

namespace Sys2Proof.Machine

/-- No instruction writes `pos`: only the fetch, in the advance before the dispatch, does (10_state.md R13). -/
theorem exec_pos {i : Instr} {s t : State} (h : exec i s = .next t) : t.pos = s.pos := by
  obtain ⟨_, _, _, -, -, rfl⟩ | ⟨_, _, _, -, -, rfl⟩ | ⟨_, -, rfl⟩ | ⟨_, _, _, -, rfl⟩ | ⟨_, _, _, _, -, rfl⟩ :=
    exec_cases h
  · exact State.setAcc_pos _ _
  · exact State.terminate_pos _ _
  · exact State.jump_pos _ _
  · rw [State.terminate_pos, State.setAction_pos]
  · exact State.terminate_pos _ _

/-- An instruction leaves `A` alone or is a load whose offset is valid, which sets `A` to the byte loaded (10_state.md
R11). -/
theorem exec_acc_cases {i : Instr} {s t : State} (h : exec i s = .next t) :
    t.acc = s.acc ∨ ∃ jt jf k, i = .ldabs jt jf k ∧ k.toNat < s.maxOff ∧ t.acc = s.loadByte k := by
  obtain ⟨jt, jf, k, rfl, hk, rfl⟩ | ⟨_, _, _, -, -, rfl⟩ | ⟨_, -, rfl⟩ | ⟨_, _, _, -, rfl⟩ | ⟨_, _, _, _, -, rfl⟩ :=
    exec_cases h
  · exact .inr ⟨jt, jf, k, rfl, hk, State.setAcc_acc _ _⟩
  · exact .inl (State.terminate_acc _ _)
  · exact .inl (State.jump_acc _ _)
  · exact .inl (by rw [State.terminate_acc, State.setAction_acc])
  · exact .inl (State.terminate_acc _ _)

/-- A loaded byte is at most 255, because it is zero-extended (41_load.md R90, log 23). -/
theorem loadByte_toNat_le (s : State) (k : Word) : (s.loadByte k).toNat ≤ 255 := by
  have hbyte := (s.recRead k).isLt
  rw [loadByte_toNat]
  omega

/-- Settles O23: a step out of range keeps `pos`, and a step in range is the dispatch, which keeps the `pos` that the
fetch wrote. -/
theorem posNamesFetchedInstruction : Obligations.PosNamesFetchedInstruction := by
  intro s t hstart hstep
  obtain ⟨hstarted, -⟩ | ⟨-, -, -, hout, rfl⟩ | ⟨-, -, -, hin, hexec⟩ := step_cases hstep
  · simp [hstart] at hstarted
  · exact ⟨fun hin => absurd hin (Nat.not_lt.2 hout), fun _ => State.rangeError_pos s⟩
  · exact ⟨fun _ => (exec_pos hexec).trans (State.advance_pos s), fun hout => absurd hin (Nat.not_lt.2 hout)⟩

/-- Settles O31: the one way to change `A` is a load with a valid offset, and what it loads is a byte of the record. -/
theorem accWrittenOnlyByLoad : Obligations.AccWrittenOnlyByLoad := by
  intro i s t hexec hne
  obtain hkept | ⟨jt, jf, k, hi, hk, hacc⟩ := exec_acc_cases hexec
  · exact absurd hkept hne
  · exact ⟨jt, jf, k, hi, hk, hacc ▸ loadByte_toNat s k, hacc ▸ loadByte_toNat_le s k⟩

end Sys2Proof.Machine

/-! What an instruction and a step never write: the inputs, the parameters and the scratch bank (10_state.md R14, R16;
20_memory.md R32). -/

namespace Sys2Proof.Machine

/-- No instruction writes the inputs, the parameters or the scratch bank. -/
theorem exec_keeps_inputs_cfg_scratch {i : Instr} {s t : State} (h : exec i s = .next t) :
    t.inputs = s.inputs ∧ t.cfg = s.cfg ∧ t.scratch = s.scratch := by
  obtain ⟨_, _, _, -, -, rfl⟩ | ⟨_, _, _, -, -, rfl⟩ | ⟨_, -, rfl⟩ | ⟨_, _, _, -, rfl⟩ | ⟨_, _, _, _, -, rfl⟩ :=
    exec_cases h
  · exact ⟨State.setAcc_inputs _ _, State.setAcc_cfg _ _, State.setAcc_scratch _ _⟩
  · exact ⟨State.terminate_inputs _ _, State.terminate_cfg _ _, State.terminate_scratch _ _⟩
  · exact ⟨State.jump_inputs _ _, State.jump_cfg _ _, State.jump_scratch _ _⟩
  · exact ⟨by simp, by simp, by simp⟩
  · exact ⟨State.terminate_inputs _ _, State.terminate_cfg _ _, State.terminate_scratch _ _⟩

/-- No step writes the inputs or the parameters, and only `start` writes the scratch bank. -/
theorem step_keeps_inputs_cfg_scratch {s t : State} (h : step s = .next t) :
    t.inputs = s.inputs ∧ t.cfg = s.cfg ∧ (s.start = false → t.scratch = s.scratch) := by
  obtain ⟨hstart, rfl⟩ | ⟨-, -, -, -, rfl⟩ | ⟨-, -, -, -, hexec⟩ := step_cases h
  · exact ⟨State.restart_inputs s, State.restart_cfg s, fun hno => by simp [hno] at hstart⟩
  · exact ⟨State.rangeError_inputs s, State.rangeError_cfg s, fun _ => State.rangeError_scratch s⟩
  · obtain ⟨hinputs, hcfg, hscratch⟩ := exec_keeps_inputs_cfg_scratch hexec
    exact ⟨hinputs.trans (State.advance_inputs s), hcfg.trans (State.advance_cfg s),
      fun _ => hscratch.trans (State.advance_scratch s)⟩

/-- Settles O22: both memories are part of the inputs, and no step writes those. -/
theorem stepNeverWritesMemory : Obligations.StepNeverWritesMemory := by
  intro s t hstep
  obtain ⟨hinputs, hcfg, hscratch⟩ := step_keeps_inputs_cfg_scratch hstep
  exact ⟨hinputs, hcfg, hscratch, fun a => by rw [hinputs]; exact ⟨rfl, rfl⟩⟩

end Sys2Proof.Machine

/-! What an instruction and a step answer, by the condition that decides it: the converses of `exec_cases` and
`step_cases` (40_execution_cycle.md R80 to R84). -/

namespace Sys2Proof.Machine

theorem exec_ldabs_of_lt_maxOff {s : State} {k : Word} (hk : k.toNat < s.maxOff) (jt jf : Byte) :
    exec (.ldabs jt jf k) s = .next (s.setAcc (s.loadByte k)) :=
  if_pos (offsetValid_iff.2 hk)

theorem exec_ldabs_of_maxOff_le {s : State} {k : Word} (hk : s.maxOff ≤ k.toNat) (jt jf : Byte) :
    exec (.ldabs jt jf k) s = .next (s.terminate (.programError .outOfRange s.pos)) :=
  if_neg fun hvalid => Nat.not_lt.2 hk (offsetValid_iff.1 hvalid)

theorem exec_of_jumpsBy {i : Instr} {s : State} {d : Nat} (h : JumpsBy s d i) : exec i s = .next (s.jump d) := by
  cases i with
  | ja jt jf k => rw [show d = _ from h]; rfl
  | jeq jt jf k => rw [show d = _ from h]; rfl
  | jgt jt jf k => rw [show d = _ from h]; rfl
  | jge jt jf k => rw [show d = _ from h]; rfl
  | ldabs jt jf k => exact h.elim
  | ret jt jf k => exact h.elim
  | unsupported opc jt jf k => exact h.elim

theorem exec_ret (s : State) (jt jf : Byte) (k : Word) :
    exec (.ret jt jf k) s = .next ((s.setAction k).terminate (classify k s.pos)) := rfl

theorem exec_unsupported (s : State) (opc : Half) (jt jf : Byte) (k : Word) :
    exec (.unsupported opc jt jf k) s = .next (s.terminate (.fault .notImplemented)) := rfl

theorem step_of_start {s : State} (h : s.start = true) : step s = .next s.restart := if_pos h

theorem step_of_progLen_le_ip {s : State} (hl : s.Looping) (hip : s.inputs.progLen.toNat ≤ s.ip) :
    step s = .next s.rangeError := by
  have hout : ¬ s.ipInRange = true := fun hin => Nat.not_lt.2 hip (ipInRange_iff.1 hin)
  simp [step, hl.noStart, hl.running, progLenLegal_iff.2 hl.lenLegal, hout]

theorem step_of_ip_lt_progLen {s : State} (hl : s.Looping) (hip : s.ip < s.inputs.progLen.toNat) :
    step s = exec s.fetched s.advance := by
  simp [step, hl.noStart, hl.running, progLenLegal_iff.2 hl.lenLegal, ipInRange_iff.2 hip]

end Sys2Proof.Machine

/-! A fetch reads eight program bytes and nothing else (20_memory.md R31). -/

namespace Sys2Proof.Machine

/-- The record at an index is assembled from the eight bytes at its offset. -/
theorem State.progRead_of_bytes {s : State} {i : Nat} {byteAt : Nat → Byte}
    (h : ∀ j, j < 8 → Memory.read s.inputs.prog (8 * i + j) = byteAt (8 * i + j)) :
    s.progRead i = assembleRecord s.cfg.byteOrder (byteAt (8 * i)) (byteAt (8 * i + 1)) (byteAt (8 * i + 2))
      (byteAt (8 * i + 3)) (byteAt (8 * i + 4)) (byteAt (8 * i + 5)) (byteAt (8 * i + 6)) (byteAt (8 * i + 7)) := by
  have hfirst : Memory.read s.inputs.prog (8 * i) = byteAt (8 * i) := h 0 (by decide)
  simp only [State.progRead, hfirst, h 1 (by decide), h 2 (by decide), h 3 (by decide), h 4 (by decide),
    h 5 (by decide), h 6 (by decide), h 7 (by decide)]

end Sys2Proof.Machine

/-! A step with other memories in place (20_memory.md R31, R34): it fetches eight bytes of an index below `PROG_LEN` and
loads at an offset below `MAX_OFF(ARCH)`, so memories that agree there give the same step. -/

namespace Sys2Proof.Machine

/-- The same state with other bytes in the program and in the record. -/
def State.withMemories (s : State) (prog record : Memory) : State :=
  { s with inputs := { s.inputs with prog := prog, record := record } }

/-- The given bytes are those of `s` wherever its program and its record extend: below `8 * PROG_LEN` and below
`MAX_OFF(ARCH)`. -/
structure State.AgreesOnExtents (s : State) (prog record : Memory) : Prop where
  prog_eq : ∀ a, a < 8 * s.inputs.progLen.toNat → Memory.read prog a = Memory.read s.inputs.prog a
  record_eq : ∀ a, a < s.maxOff → Memory.read record a = Memory.read s.inputs.record a

section
variable (s : State) (prog record : Memory) (v : Word) (d : Nat) (o : RunOutcome)

/-! ## Every update commutes with it -/

theorem State.setAcc_withMemories :
    (s.withMemories prog record).setAcc v = (s.setAcc v).withMemories prog record := rfl

theorem State.jump_withMemories :
    (s.withMemories prog record).jump d = (s.jump d).withMemories prog record := rfl

theorem State.terminate_withMemories :
    (s.withMemories prog record).terminate o = (s.terminate o).withMemories prog record := rfl

theorem State.setAction_withMemories :
    (s.withMemories prog record).setAction v = (s.setAction v).withMemories prog record := rfl

theorem State.advance_withMemories :
    (s.withMemories prog record).advance = s.advance.withMemories prog record := rfl

theorem State.rangeError_withMemories :
    (s.withMemories prog record).rangeError = s.rangeError.withMemories prog record := rfl

theorem State.restart_withMemories :
    (s.withMemories prog record).restart = s.restart.withMemories prog record := rfl

theorem State.Looping.withMemories {s : State} (h : s.Looping) : (s.withMemories prog record).Looping :=
  ⟨h.noStart, h.running, h.lenLegal⟩

theorem JumpsBy.withMemories {i : Instr} {s : State} {d : Nat} (h : JumpsBy s d i) :
    JumpsBy (s.withMemories prog record) d i := by
  cases i <;> exact h

end

section
variable {s t : State} {prog record : Memory}

/-! ## What is read under agreement on the extents -/

theorem State.fetched_withMemories (h : s.AgreesOnExtents prog record) (hip : s.ip < s.inputs.progLen.toNat) :
    (s.withMemories prog record).fetched = s.fetched := by
  have hread : (s.withMemories prog record).progRead s.ip = s.progRead s.ip :=
    State.progRead_of_bytes fun j hj => h.prog_eq (8 * s.ip + j) (by omega)
  exact congrArg (decodeWord s.cfg) hread

theorem State.loadByte_withMemories {k : Word} (h : s.AgreesOnExtents prog record) (hk : k.toNat < s.maxOff) :
    (s.withMemories prog record).loadByte k = s.loadByte k :=
  congrArg (BitVec.setWidth 32) (h.record_eq _ hk)

/-! ## Instructions and steps -/

/-- An instruction reads no program byte, and the record below `MAX_OFF(ARCH)` alone. -/
theorem exec_withMemories {i : Instr} (h : s.AgreesOnExtents prog record) (hexec : exec i s = .next t) :
    exec i (s.withMemories prog record) = .next (t.withMemories prog record) := by
  obtain ⟨jt, jf, k, rfl, hk, rfl⟩ | ⟨jt, jf, k, rfl, hk, rfl⟩ | ⟨d, hd, rfl⟩ | ⟨jt, jf, k, rfl, rfl⟩ |
    ⟨opc, jt, jf, k, rfl, rfl⟩ := exec_cases hexec
  · rw [exec_ldabs_of_lt_maxOff (s := s.withMemories prog record) hk, State.loadByte_withMemories h hk,
      State.setAcc_withMemories]
  · rw [exec_ldabs_of_maxOff_le (s := s.withMemories prog record) hk, State.terminate_withMemories]
    rfl
  · rw [exec_of_jumpsBy (hd.withMemories prog record), State.jump_withMemories]
  · rw [exec_ret, State.setAction_withMemories, State.terminate_withMemories]
    rfl
  · rw [exec_unsupported, State.terminate_withMemories]

/-- Neither does a step read anything outside the two extents. -/
theorem step_withMemories (h : s.AgreesOnExtents prog record) (hstep : step s = .next t) :
    step (s.withMemories prog record) = .next (t.withMemories prog record) := by
  obtain ⟨hstart, rfl⟩ | ⟨hstart, hrun, hlen, hip, rfl⟩ | ⟨hstart, hrun, hlen, hip, hexec⟩ := step_cases hstep
  · rw [step_of_start (s := s.withMemories prog record) hstart, State.restart_withMemories]
  · have hloop : (s.withMemories prog record).Looping := State.Looping.withMemories prog record ⟨hstart, hrun, hlen⟩
    rw [step_of_progLen_le_ip hloop hip, State.rangeError_withMemories]
  · have hloop : (s.withMemories prog record).Looping := State.Looping.withMemories prog record ⟨hstart, hrun, hlen⟩
    rw [step_of_ip_lt_progLen hloop hip, State.fetched_withMemories h hip, State.advance_withMemories]
    exact exec_withMemories (s := s.advance) ⟨h.prog_eq, h.record_eq⟩ hexec

end

/-- Settles O28: a step with other memories in place gives the same next state with them in place, and that state's
inputs are otherwise those of `s`, which no step writes. -/
theorem stepReadsOnlyItsExtents : Obligations.StepReadsOnlyItsExtents := by
  intro s prog record hprog hrecord t hstep
  obtain ⟨hinputs, -, -⟩ := step_keeps_inputs_cfg_scratch hstep
  simpa only [State.withMemories, hinputs] using step_withMemories ⟨hprog, hrecord⟩ hstep

end Sys2Proof.Machine

/-! What the loader makes of a stream: its bytes at their own offsets, as far as whole records go (20_memory.md R44 to
R46). -/

namespace Sys2Proof.Machine

/-- The program that a stream within the limit holds (20_memory.md R44). -/
def programOf (bytes : List Byte) : Program where
  len := BitVec.ofNat 13 (recordCount bytes)
  mem := Memory.ofBytesAt 0 (bytes.take (8 * recordCount bytes))

theorem loadProgram_stream_of_le {bytes : List Byte} (h : recordCount bytes ≤ progMax) :
    loadProgram (.stream bytes) = .ok (programOf bytes) := if_pos h

/-- `PROG_MAX` fits the 13 bits of `PROG_LEN`. -/
theorem programOf_len {bytes : List Byte} (h : recordCount bytes ≤ progMax) :
    (programOf bytes).len.toNat = recordCount bytes := by
  have hsmall : recordCount bytes < 2 ^ 13 := Nat.lt_of_le_of_lt h (by decide)
  exact (BitVec.toNat_ofNat _ _).trans (Nat.mod_eq_of_lt hsmall)

/-- Below the end of the last whole record the program holds the stream's byte at the same offset. -/
theorem programOf_read {bytes : List Byte} {a : Nat} (h : a < 8 * recordCount bytes) :
    Memory.read (programOf bytes).mem a = bytes.getD a 0 := by
  rw [programOf, Memory.read_ofBytesAt, if_pos (Nat.zero_le a), Nat.sub_zero]
  simp [List.getD_eq_getElem?_getD, List.getElem?_take_of_lt h]

/-- Settles O7: the eight bytes of a record below `PROG_LEN` all lie below the end of the last whole record. -/
theorem loaderReadsWholeRecords : Obligations.LoaderReadsWholeRecords := by
  intro bytes hfits
  refine ⟨programOf bytes, loadProgram_stream_of_le hfits, programOf_len hfits, fun s hprog i hi => ?_⟩
  rw [programOf_len hfits] at hi
  exact State.progRead_of_bytes (byteAt := fun a => bytes.getD a 0) fun j hj => by
    rw [hprog, programOf_read (by omega)]

end Sys2Proof.Machine

/-! A record and the instruction it decodes to hold the same four fields, so that decoding and encoding undo each other
(30_encoding.md R60, R63, R66). -/

namespace Sys2Proof

variable {c : Config}

/-! ## From a record to its instruction and back -/

/-- Decoding loses no field and answers no ill-formed instruction. -/
theorem decodeWord_fields (c : Config) (w : Insn) :
    (decodeWord c w).wf c = true ∧ (decodeWord c w).opcode c = opcOf w ∧ (decodeWord c w).jtField = jtOf w ∧
      (decodeWord c w).jfField = jfOf w ∧ (decodeWord c w).kField = kOf w := by
  obtain ⟨hopc, hdec⟩ | ⟨hopc, hdec⟩ | ⟨hopc, hdec⟩ | ⟨hopc, hdec⟩ | ⟨hopc, hdec⟩ | ⟨hopc, hdec⟩ | ⟨hopc, hdec⟩ :=
    decodeWord_cases w c <;> rw [hdec]
  on_goal 7 => exact ⟨decide_eq_true hopc, rfl, rfl, rfl, rfl⟩
  all_goals exact ⟨rfl, hopc.symm, rfl, rfl, rfl⟩

theorem encode_decodeWord (c : Config) (w : Insn) : encode c (decodeWord c w) = w := by
  obtain ⟨-, hopc, hjt, hjf, hk⟩ := decodeWord_fields c w
  rw [encode, hopc, hjt, hjf, hk, mkRecord_fields]

/-- Settles O2: an instruction that holds all four fields of a record encodes back to it. -/
theorem encodeOfDecodedRecord : Obligations.EncodeOfDecodedRecord := fun c w =>
  ⟨(decodeWord_fields c w).1, encode_decodeWord c w⟩

/-! ## From an instruction to its record and back -/

/-- An instruction's opcode is none of those that the decoder compares with before it (30_encoding.md R66). -/
theorem nodup_reverse_opcodes_of_wf (hc : c.wf = true) : c.opcodes.reverse.Nodup := by
  simp only [Config.wf, Bool.and_eq_true, decide_eq_true_eq] at hc
  obtain ⟨⟨⟨⟨-, hnodup⟩, -⟩, -⟩, -⟩ := hc
  exact List.nodup_reverse.2 hnodup

/-- The comparisons before an instruction's own opcode fail, and its own succeeds. -/
theorem decodeWord_encode (hc : c.wf = true) {i : Instr} (hi : i.wf c = true) : decodeWord c (encode c i) = i := by
  have hne := nodup_reverse_opcodes_of_wf hc
  simp only [Config.opcodes, List.reverse_cons, List.reverse_nil, List.nil_append, List.cons_append, List.nodup_cons,
    List.mem_cons, List.not_mem_nil, not_or] at hne
  obtain ⟨hopc, hjt, hjf, hk⟩ := Laws.Fields.of_encode i c
  rw [decodeWord, hopc, hjt, hjf, hk]
  cases i
  case unsupported opc jt jf k =>
    have hfree : opc ∉ c.opcodes := of_decide_eq_true hi
    simp only [Config.opcodes, List.mem_cons, not_or] at hfree
    simp [Instr.opcode, Instr.jtField, Instr.jfField, Instr.kField, hfree]
  all_goals simp [Instr.opcode, Instr.jtField, Instr.jfField, Instr.kField, hne]

/-- The decoder takes a record's eight bytes from the front of a stream and leaves the rest. -/
theorem decodeBytes_recordBytes_append (c : Config) (w : Insn) (rest : List Byte) :
    decodeBytes c (recordBytes c.byteOrder w ++ rest) = .ok (decodeWord c w, rest) := by
  obtain ⟨b0, b1, b2, b3, b4, b5, b6, b7, hbytes, hrecord⟩ := assembleRecord_recordBytes w c.byteOrder
  rw [hbytes, ← hrecord]
  rfl

/-- Settles O1: the stream's first eight bytes give the record back, and the record gives the instruction back. -/
theorem decodeOfEncodedBytes : Obligations.DecodeOfEncodedBytes := by
  intro c i rest hc hi
  rw [encodeBytes, decodeBytes_recordBytes_append, decodeWord_encode hc hi]

/-! ## The opcode selects the instruction -/

/-- Nothing but the opcode field selects the instruction. -/
theorem mnemonic_decodeWord_congr {w w' : Insn} (h : opcOf w' = opcOf w) :
    (decodeWord c w').mnemonic = (decodeWord c w).mnemonic := by
  rw [decodeWord, decodeWord, h]
  split_ifs <;> rfl

/-- The opcode that a mnemonic other than UNSUPPORTED stands for. -/
def Config.opcodeNamed (c : Config) : String → Option Half
  | "LDABS" => some c.opcLdabs
  | "JA" => some c.opcJa
  | "JEQ" => some c.opcJeq
  | "JGT" => some c.opcJgt
  | "JGE" => some c.opcJge
  | "RET" => some c.opcRet
  | _ => none

theorem Instr.opcodeNamed_mnemonic {i : Instr} (h : i.mnemonic ≠ "UNSUPPORTED") :
    c.opcodeNamed i.mnemonic = some (i.opcode c) := by
  cases i with
  | unsupported opc jt jf k => exact absurd rfl h
  | _ => rfl

/-- A record decodes to an instruction of the same name as `i` exactly when it has the opcode of `i`. -/
theorem mnemonic_decodeWord_eq_iff (hc : c.wf = true) (w : Insn) {i : Instr} (hi : i.wf c = true)
    (hname : i.mnemonic ≠ "UNSUPPORTED") : (decodeWord c w).mnemonic = i.mnemonic ↔ opcOf w = i.opcode c := by
  obtain ⟨-, hopc, -⟩ := decodeWord_fields c w
  constructor
  · intro h
    have hnamed : c.opcodeNamed (decodeWord c w).mnemonic = some (opcOf w) := by
      rw [Instr.opcodeNamed_mnemonic (h ▸ hname), hopc]
    rw [h, Instr.opcodeNamed_mnemonic hname] at hnamed
    exact (Option.some.inj hnamed).symm
  · intro h
    obtain ⟨hfield, -⟩ := Laws.Fields.of_encode i c
    rw [mnemonic_decodeWord_congr (h.trans hfield.symm), decodeWord_encode hc hi]

/-- A well-formed instruction is the default arm exactly when no other arm claims its opcode (44_unsupported.md R121). -/
theorem Instr.mnemonic_eq_unsupported_iff {i : Instr} (hi : i.wf c = true) :
    i.mnemonic = "UNSUPPORTED" ↔ i.opcode c ∉ c.opcodes := by
  cases i with
  | unsupported opc jt jf k => exact ⟨fun _ => of_decide_eq_true hi, fun _ => rfl⟩
  | _ => simp [Instr.mnemonic, Instr.opcode, Config.opcodes]

/-- Settles O3: each of the first six clauses compares the record with some instruction of the name in question. -/
theorem decodeSelectsByWholeOpcode : Obligations.DecodeSelectsByWholeOpcode := by
  intro c hc w
  obtain ⟨hwf, hopc, -⟩ := decodeWord_fields c w
  refine ⟨mnemonic_decodeWord_eq_iff hc w (i := .ldabs 0 0 0) rfl (by decide),
    mnemonic_decodeWord_eq_iff hc w (i := .ja 0 0 0) rfl (by decide),
    mnemonic_decodeWord_eq_iff hc w (i := .jeq 0 0 0) rfl (by decide),
    mnemonic_decodeWord_eq_iff hc w (i := .jgt 0 0 0) rfl (by decide),
    mnemonic_decodeWord_eq_iff hc w (i := .jge 0 0 0) rfl (by decide),
    mnemonic_decodeWord_eq_iff hc w (i := .ret 0 0 0) rfl (by decide), ?_, fun w' => mnemonic_decodeWord_congr⟩
  rw [Instr.mnemonic_eq_unsupported_iff hwf, hopc]

end Sys2Proof

/-! Where the eight stream bytes of a record stand in it, as numbers (20_memory.md R38, 30_encoding.md R61). -/

namespace Sys2Proof

theorem toNat_append_eq_add {m n : Nat} (hi : BitVec m) (lo : BitVec n) :
    (hi ++ lo).toNat = lo.toNat + 2 ^ n * hi.toNat := by
  rw [BitVec.toNat_append, ← Nat.shiftLeft_add_eq_or_of_lt lo.isLt, Nat.shiftLeft_eq, Nat.add_comm, Nat.mul_comm]

variable (b0 b1 b2 b3 b4 b5 b6 b7 : Byte)

theorem assembleRecord_little_toNat :
    (assembleRecord .little b0 b1 b2 b3 b4 b5 b6 b7).toNat
      = b0.toNat + 2 ^ 8 * b1.toNat + 2 ^ 16 * b2.toNat + 2 ^ 24 * b3.toNat
        + 2 ^ 32 * b4.toNat + 2 ^ 40 * b5.toNat + 2 ^ 48 * b6.toNat + 2 ^ 56 * b7.toNat := by
  simp only [assembleRecord, mkRecord_toNat, toNat_append_eq_add]
  omega

/-- The big-endian record is the little-endian one with the bytes inside `opc` and inside `k` swapped. -/
theorem assembleRecord_big_eq_little :
    assembleRecord .big b0 b1 b2 b3 b4 b5 b6 b7 = assembleRecord .little b1 b0 b2 b3 b7 b6 b5 b4 := rfl

theorem recordBytes_little_assembleRecord :
    recordBytes .little (assembleRecord .little b0 b1 b2 b3 b4 b5 b6 b7) = [b0, b1, b2, b3, b4, b5, b6, b7] := by
  simp only [recordBytes, jtOf, jfOf, List.cons.injEq, and_true, ← BitVec.toNat_inj, BitVec.extractLsb'_toNat,
    Nat.shiftRight_eq_div_pow, assembleRecord_little_toNat]
  omega

theorem recordBytes_big_assembleRecord :
    recordBytes .big (assembleRecord .big b0 b1 b2 b3 b4 b5 b6 b7) = [b0, b1, b2, b3, b4, b5, b6, b7] := by
  have hlittle := recordBytes_little_assembleRecord b1 b0 b2 b3 b7 b6 b5 b4
  simp only [recordBytes, List.cons.injEq] at hlittle
  simp [recordBytes, assembleRecord_big_eq_little, hlittle]

/-- Settles O4: the fields hold the bytes appended, the most significant first, and the bytes appended are a sum. -/
theorem recordFieldsFromStreamBytes : Obligations.RecordFieldsFromStreamBytes := by
  intro b0 b1 b2 b3 b4 b5 b6 b7
  refine ⟨fun o => ?_, ?_, ?_, ?_, ?_⟩
  · cases o with
    | little => exact ⟨jtOf_mkRecord .., jfOf_mkRecord .., recordBytes_little_assembleRecord ..⟩
    | big => exact ⟨jtOf_mkRecord .., jfOf_mkRecord .., recordBytes_big_assembleRecord ..⟩
  · rw [assembleRecord, opcOf_mkRecord, toNat_append_eq_add]
  · rw [assembleRecord, kOf_mkRecord]
    simp only [toNat_append_eq_add]
    omega
  · rw [assembleRecord, opcOf_mkRecord, toNat_append_eq_add]
  · rw [assembleRecord, kOf_mkRecord]
    simp only [toNat_append_eq_add]
    omega

end Sys2Proof

/-! Where a jump that is fetched leaves `ip` (42_jump.md R95 to R99; 30_encoding.md R64, R65). -/

namespace Sys2Proof.Machine

section
variable {s : State}

/-- The advance of a fetch in range does not wrap (40_execution_cycle.md R83). -/
theorem State.Looping.advance_ip (hl : s.Looping) (hwidth : 13 ≤ s.cfg.ipBits)
    (hip : s.ip < s.inputs.progLen.toNat) : s.advance.ip = s.ip + 1 := by
  have hlen : s.inputs.progLen.toNat ≤ 4096 := hl.lenLegal
  exact addIpBits_of_small hwidth (by omega)

theorem step_of_fetched_jumpsBy {d : Nat} (hl : s.Looping) (hip : s.ip < s.inputs.progLen.toNat)
    (hjump : JumpsBy s.advance d s.fetched) : step s = .next (s.advance.jump d) :=
  (step_of_ip_lt_progLen hl hip).trans (exec_of_jumpsBy hjump)

/-- JEQ, JGT and JGE differ in their condition alone. -/
theorem jumpsBy_chosenDistance_of_mem {i : Instr} {jt jf : Byte} {k : Word}
    (h : i ∈ [Instr.jeq jt jf k, Instr.jgt jt jf k, Instr.jge jt jf k]) (s : State) :
    ∃ cond, JumpsBy s (chosenDistance s.cfg cond jt jf) i := by
  simp only [List.mem_cons, List.not_mem_nil, or_false] at h
  obtain rfl | rfl | rfl := h
  · exact ⟨condEq s.acc k, rfl⟩
  · exact ⟨condGt s.acc k, rfl⟩
  · exact ⟨condGe s.acc k, rfl⟩

/-- A conditional jump in range does not wrap either: 4095 + 1 + 255 fits 13 bits. -/
theorem conditional_jump_ip (hl : s.Looping) (hwidth : 13 ≤ s.cfg.ipBits) (hip : s.ip < s.inputs.progLen.toNat)
    (cond : Bool) (jt jf : Byte) :
    (s.advance.jump (chosenDistance s.cfg cond jt jf)).ip = s.ip + 1 + if cond then jt.toNat else jf.toNat := by
  have hlen : s.inputs.progLen.toNat ≤ 4096 := hl.lenLegal
  rw [State.jump_ip, hl.advance_ip hwidth hip, chosenDistance_eq hwidth]
  exact addIpBits_of_small hwidth (by split <;> omega)

theorem ja_ip (hl : s.Looping) (hwidth : 13 ≤ s.cfg.ipBits) (hip : s.ip < s.inputs.progLen.toNat) (k : Word) :
    (s.advance.jump (distanceOfK s.cfg k)).ip = (s.ip + 1 + k.toNat) % 2 ^ s.cfg.ipBits := by
  rw [State.jump_ip, hl.advance_ip hwidth hip]
  exact addIpBits_distanceOfK s.cfg _ k

end

/-- Settles O37: the distance added is one of the two bytes, and the sum does not wrap. -/
theorem conditionalJumpsGoForward : Obligations.ConditionalJumpsGoForward := by
  intro s jt jf k hwidth hl hip hfetched
  obtain ⟨cond, hjump⟩ := jumpsBy_chosenDistance_of_mem hfetched s.advance
  refine ⟨_, step_of_fetched_jumpsBy hl hip hjump, ?_⟩
  rw [State.advance_cfg, conditional_jump_ip hl hwidth hip]
  split <;> omega

/-- Counted modulo `m`, `target - p - 1` leads from just after `p` to `target`. -/
theorem add_mod_eq_target {m p target k : Nat} (hp : p < m) (htarget : target < m)
    (hk : k % m = (target + m - p - 1) % m) : (p + 1 + k) % m = target := by
  have hsum : p + 1 + (target + m - p - 1) = target + m := by omega
  rw [Nat.add_mod, hk, ← Nat.add_mod, hsum, Nat.add_mod_right, Nat.mod_eq_of_lt htarget]

/-- In at most 32 bits the distance 0xffffffff undoes the advance. -/
theorem add_allOnes_mod_eq_self {b p : Nat} (hb : b ≤ 32) (hp : p < 2 ^ b) :
    (p + 1 + (0xffffffff : Word).toNat) % 2 ^ b = p := by
  have hones : (0xffffffff : Word).toNat = 2 ^ 32 - 1 := by decide
  have hsum : p + 1 + (0xffffffff : Word).toNat = p + 2 ^ 32 := by omega
  rw [hsum, Nat.add_mod, Nat.mod_eq_zero_of_dvd (Nat.pow_dvd_pow 2 hb), Nat.add_zero, Nat.mod_mod, Nat.mod_eq_of_lt hp]

/-- Settles O38: the new `ip` is `p + 1 + k` modulo `2^IP_BITS`, which wraps in at most 32 bits and does not in more. -/
theorem jaReachesAnyTarget : Obligations.JaReachesAnyTarget := by
  intro s jt jf k hwidth hl hip hfetched
  have hlen : s.inputs.progLen.toNat ≤ 4096 := hl.lenLegal
  have hfits : s.ip < 2 ^ s.cfg.ipBits :=
    calc s.ip < 2 ^ 13 := by omega
      _ ≤ 2 ^ s.cfg.ipBits := Nat.pow_le_pow_right (by decide) hwidth
  have hjump : JumpsBy s.advance (distanceOfK s.cfg k) s.fetched := by rw [State.fetched, hfetched]; rfl
  refine ⟨_, step_of_fetched_jumpsBy hl hip hjump, rfl, hl.running, ?_⟩
  rw [ja_ip hl hwidth hip]
  refine ⟨fun hnarrow => ⟨fun target htarget => add_mod_eq_target hfits htarget, ?_⟩, fun hwide => ?_⟩
  · rintro rfl
    exact add_allOnes_mod_eq_self hnarrow hfits
  · have hpow : 2 ^ 33 ≤ 2 ^ s.cfg.ipBits := Nat.pow_le_pow_right (by decide) hwide
    exact Nat.mod_eq_of_lt (by omega)

end Sys2Proof.Machine

/-! One cycle in range: the fetch, the advance and the dispatch of what was fetched (40_execution_cycle.md R80 to R84). -/

namespace Sys2Proof.Machine

section
variable {i : Instr} {s t : State}

/-- What is fetched is what the eight program bytes from `8 * ip` decode to (20_memory.md R31). -/
theorem decodeBytes_read_eq_fetched (s : State) :
    decodeBytes s.cfg ((List.range 8).map fun j => Memory.read s.inputs.prog (8 * s.ip + j)) = .ok (s.fetched, []) := rfl

theorem eq_jump_of_exec_jumpsBy {d : Nat} (hexec : exec i s = .next t) (hjump : JumpsBy s d i) : t = s.jump d :=
  Host.Outcome.next.inj (hexec.symm.trans (exec_of_jumpsBy hjump))

/-- Only a jump writes `ip` during the dispatch. -/
theorem exec_ip_of_not_jumpsBy (hexec : exec i s = .next t) (hno : ∀ d, ¬ JumpsBy s d i) : t.ip = s.ip := by
  obtain ⟨_, _, _, -, -, rfl⟩ | ⟨_, _, _, -, -, rfl⟩ | ⟨d, hjump, -⟩ | ⟨_, _, _, -, rfl⟩ | ⟨_, _, _, _, -, rfl⟩ :=
    exec_cases hexec
  · exact State.setAcc_ip _ _
  · exact State.terminate_ip _ _
  · exact absurd hjump (hno d)
  · rw [State.terminate_ip, State.setAction_ip]
  · exact State.terminate_ip _ _

end

/-- Settles O17: the bytes decode to the fetched instruction alone, and a step in range dispatches that one. -/
theorem stepRunsDecodedInstruction : Obligations.StepRunsDecodedInstruction := by
  intro s i hl hip hdecoded
  rw [decodeBytes_read_eq_fetched] at hdecoded
  obtain ⟨rfl, -⟩ := Prod.mk.inj (Except.ok.inj hdecoded)
  exact step_of_ip_lt_progLen hl hip

/-- Settles O24: the dispatch starts from `ip + 1`, where every instruction but a jump leaves it and from where each
jump adds its distance. -/
theorem advanceComesBeforeDispatch : Obligations.AdvanceComesBeforeDispatch := by
  intro s hwidth hl hip
  obtain ⟨t, hexec⟩ := exec_answers_next s.fetched s.advance
  refine ⟨t, (step_of_ip_lt_progLen hl hip).trans hexec, (exec_pos hexec).trans (State.advance_pos s), ?_⟩
  have hfetched : decodeWord s.cfg (s.progRead s.ip) = s.fetched := rfl
  rw [hfetched]
  generalize s.fetched = i at hexec ⊢
  have hkept (hno : ∀ d, ¬ JumpsBy s.advance d i) : t.ip = s.ip + 1 :=
    (exec_ip_of_not_jumpsBy hexec hno).trans (hl.advance_ip hwidth hip)
  have hchosen {cond : Bool} {jt jf : Byte} (hjump : JumpsBy s.advance (chosenDistance s.cfg cond jt jf) i) :
      t.ip = s.ip + 1 + if cond then jt.toNat else jf.toNat := by
    rw [eq_jump_of_exec_jumpsBy hexec hjump, conditional_jump_ip hl hwidth hip]
  cases i with
  | ldabs jt jf k => exact hkept fun _ => id
  | ret jt jf k => exact hkept fun _ => id
  | unsupported opc jt jf k => exact hkept fun _ => id
  | ja jt jf k =>
    obtain rfl : t = s.advance.jump (distanceOfK s.cfg k) := eq_jump_of_exec_jumpsBy hexec rfl
    exact ja_ip hl hwidth hip k
  | jeq jt jf k => simpa [condEq] using hchosen (cond := condEq s.acc k) rfl
  | jgt jt jf k => simpa [condGt] using hchosen (cond := condGt s.acc k) rfl
  | jge jt jf k => simpa [condGe] using hchosen (cond := condGe s.acc k) rfl

end Sys2Proof.Machine

/-! An instruction under another tag (41_load.md R91; 30_encoding.md R70): no update reads the tag, and a load reads it
through `MAX_OFF(ARCH)` alone. -/

namespace Sys2Proof.Machine

/-- The same state with another tag. -/
def State.withArch (s : State) (b : Arch) : State := { s with inputs := { s.inputs with arch := b } }

section
variable (s : State) (b : Arch) (v : Word) (d : Nat) (o : RunOutcome)

/-! ## Every update and the load's value commute with it -/

theorem State.setAcc_withArch : (s.withArch b).setAcc v = (s.setAcc v).withArch b := rfl

theorem State.jump_withArch : (s.withArch b).jump d = (s.jump d).withArch b := rfl

theorem State.terminate_withArch : (s.withArch b).terminate o = (s.terminate o).withArch b := rfl

theorem State.setAction_withArch : (s.withArch b).setAction v = (s.setAction v).withArch b := rfl

theorem State.loadByte_withArch : (s.withArch b).loadByte v = s.loadByte v := rfl

theorem State.pos_withArch : (s.withArch b).pos = s.pos := rfl

theorem JumpsBy.withArch {i : Instr} {s : State} {d : Nat} (h : JumpsBy s d i) : JumpsBy (s.withArch b) d i := by
  cases i <;> exact h

end

/-- An instruction does the same under another tag, unless it is a load whose offset is valid under one of them only. -/
theorem exec_withArch {i : Instr} {s t : State} {b : Arch}
    (hbound : ∀ jt jf k, i = .ldabs jt jf k → (k.toNat < s.maxOff ↔ k.toNat < (s.withArch b).maxOff))
    (hexec : exec i s = .next t) : exec i (s.withArch b) = .next (t.withArch b) := by
  obtain ⟨jt, jf, k, rfl, hk, rfl⟩ | ⟨jt, jf, k, rfl, hk, rfl⟩ | ⟨d, hd, rfl⟩ | ⟨jt, jf, k, rfl, rfl⟩ |
    ⟨opc, jt, jf, k, rfl, rfl⟩ := exec_cases hexec
  · have hvalid : k.toNat < (s.withArch b).maxOff := (hbound jt jf k rfl).1 hk
    rw [exec_ldabs_of_lt_maxOff hvalid, State.loadByte_withArch, State.setAcc_withArch]
  · have hinvalid : (s.withArch b).maxOff ≤ k.toNat :=
      Nat.le_of_not_lt fun hvalid => Nat.not_lt.2 hk ((hbound jt jf k rfl).2 hvalid)
    rw [exec_ldabs_of_maxOff_le hinvalid, State.terminate_withArch, State.pos_withArch]
  · rw [exec_of_jumpsBy (hd.withArch b), State.jump_withArch]
  · rw [exec_ret, State.setAction_withArch, State.terminate_withArch, State.pos_withArch]
  · rw [exec_unsupported, State.terminate_withArch]

/-- Settles O32: where the two bounds agree on the offset, the next states differ in the tag alone; where they do not,
the load is taken under one tag and is a range error under the other. -/
theorem archActsThroughMaxOffOnly : Obligations.ArchActsThroughMaxOffOnly := by
  intro i s a b
  refine ⟨fun hbound t hexec => ?_, ?_⟩
  · obtain ⟨hinputs, -, -⟩ := exec_keeps_inputs_cfg_scratch hexec
    simpa only [State.withArch, hinputs] using exec_withArch (s := s.withArch a) (b := b) hbound hexec
  · rintro jt jf k rfl hvalid hinvalid
    exact ⟨⟨_, exec_ldabs_of_lt_maxOff hvalid jt jf, loadByte_toNat s k, rfl⟩,
      ⟨_, exec_ldabs_of_maxOff_le hinvalid jt jf, rfl, rfl, rfl⟩⟩

end Sys2Proof.Machine

/-! Where JA and JEQ leave `ip`, in every state and at every width (42_jump.md R95 to R97; 30_encoding.md R64, R65). -/

namespace Sys2Proof.Machine

/-- Settles O33: bringing `k` to `IP_BITS` bits first does not change the sum. -/
theorem jaAddsDistance : Obligations.JaAddsDistance := fun s _ _ k =>
  ⟨s.jump (distanceOfK s.cfg k), exec_of_jumpsBy rfl, addIpBits_distanceOfK s.cfg s.ip k, rfl⟩

/-- JEQ's condition on the words is the equality of their numbers. -/
theorem condEq_iff {acc k : Word} : condEq acc k = true ↔ acc.toNat = k.toNat := by
  rw [condEq, decide_eq_true_iff, BitVec.toNat_inj]

theorem jump_condEq_ip (s : State) (jt jf : Byte) (k : Word) :
    (s.jump (chosenDistance s.cfg (condEq s.acc k) jt jf)).ip =
      (s.ip + if s.acc.toNat = k.toNat then jt.toNat else jf.toNat) % 2 ^ s.cfg.ipBits := by
  simp only [State.jump_ip, addIpBits_chosenDistance, condEq_iff]

/-- Settles O34: one distance of the two is added, the one that JEQ's condition chooses. -/
theorem jeqComparesForEquality : Obligations.JeqComparesForEquality := by
  intro s jt jf k
  refine ⟨s.jump (chosenDistance s.cfg (condEq s.acc k) jt jf), exec_of_jumpsBy rfl, fun heq => ?_, fun hne => ?_, rfl⟩
  · rw [jump_condEq_ip, if_pos heq]
  · rw [jump_condEq_ip, if_neg hne]

end Sys2Proof.Machine

/-! The outcome after a RET, disposition by disposition (43_return_and_action.md R106 to R111). -/

namespace Sys2Proof.Machine

/-- The classifier answers `Ok` with the dispositions the code belongs to and with no other. -/
theorem classify_eq_ok_iff {k : Word} {p : Nat} {d : Disposition} : classify k p = .ok k d ↔ d.OfCode k := by
  obtain ⟨d', hd', hcls⟩ | ⟨hnone, hcls⟩ := classify_cases k p
  · rw [hcls, RunOutcome.ok.injEq]
    exact ⟨fun ⟨_, heq⟩ => heq ▸ hd', fun hd => ⟨rfl, Disposition.ofCode_unique hd' hd⟩⟩
  · rw [hcls]
    exact ⟨fun hne => RunOutcome.noConfusion hne, fun hd => absurd hd (hnone d)⟩

theorem classify_eq_undefinedAction {k : Word} (hnone : ∀ d : Disposition, ¬ d.OfCode k) (p : Nat) :
    classify k p = .programError .undefinedAction p := by
  obtain ⟨d, hd, -⟩ | ⟨-, hcls⟩ := classify_cases k p
  · exact absurd hd (hnone d)
  · exact hcls

/-- The codes of the dispositions, as numbers: one value each, but for `ErrnoReturn`, which has a whole top half. -/
theorem Disposition.OfCode.toNat_cases {d : Disposition} {k : Word} (h : d.OfCode k) :
    k.toNat = 0x00000000 ∨ k.toNat = 0x00020000 ∨ k.toNat / 2 ^ 16 = 3 ∨ k.toNat = 0x7fff0000 := by
  cases d with
  | kill => exact .inl (congrArg BitVec.toNat (show k = 0x00000000 from h))
  | trap => exact .inr (.inl (congrArg BitVec.toNat (show k = 0x00020000 from h)))
  | errnoReturn e =>
    have hk : k.toNat = 0x00030000 + e.toNat := h
    have he := e.isLt
    exact .inr (.inr (.inl (by omega)))
  | allow => exact .inr (.inr (.inr (congrArg BitVec.toNat (show k = 0x7fff0000 from h))))

/-- After RET `k` the outcome is `Ok` with the disposition that `k` is a code of, and an undefined action at the RET's
own index if there is none. -/
theorem exec_ret_outcome (s : State) (jt jf : Byte) (k : Word) :
    ∃ t, exec (.ret jt jf k) s = .next t ∧ (∀ d, t.outcome = some (.ok k d) ↔ d.OfCode k) ∧
      ((∀ d : Disposition, ¬ d.OfCode k) → t.outcome = some (.programError .undefinedAction s.pos)) := by
  refine ⟨_, exec_ret s jt jf k, fun d => ?_, fun hnone => ?_⟩
  · rw [State.terminate_outcome, Option.some.injEq, classify_eq_ok_iff]
  · rw [State.terminate_outcome, classify_eq_undefinedAction hnone]

/-- Settles O40: no other disposition has a code whose top half is 0. -/
theorem killIsExactlyZero : Obligations.KillIsExactlyZero := by
  intro s jt jf k
  obtain ⟨t, hexec, hok, hundefined⟩ := exec_ret_outcome s jt jf k
  refine ⟨t, hexec, hok .kill, fun htop hlow => ⟨s.pos, hundefined fun d hd => ?_⟩⟩
  have hcodes := hd.toNat_cases
  omega

/-- Settles O41: no other disposition has a code whose top half is 2. -/
theorem trapIsExactlyItsCode : Obligations.TrapIsExactlyItsCode := by
  intro s jt jf k
  obtain ⟨t, hexec, hok, hundefined⟩ := exec_ret_outcome s jt jf k
  refine ⟨t, hexec, hok .trap, fun hlow hhigh => ⟨s.pos, hundefined fun d hd => ?_⟩⟩
  have hcodes := hd.toNat_cases
  omega

/-- Settles O42: the codes of `ErrnoReturn e` are given by this equation, and each is classified so. -/
theorem errnoReturnCarriesLowHalf : Obligations.ErrnoReturnCarriesLowHalf := by
  intro s jt jf k
  obtain ⟨t, hexec, hok, -⟩ := exec_ret_outcome s jt jf k
  exact ⟨t, hexec, fun e => hok (.errnoReturn e)⟩

/-- Settles O43: no other disposition has a code whose top half is 0x7fff. -/
theorem allowIsExactlyItsCode : Obligations.AllowIsExactlyItsCode := by
  intro s jt jf k
  obtain ⟨t, hexec, hok, hundefined⟩ := exec_ret_outcome s jt jf k
  refine ⟨t, hexec, hok .allow, fun hlow hhigh => ⟨s.pos, hundefined fun d hd => ?_⟩⟩
  have hcodes := hd.toNat_cases
  omega

end Sys2Proof.Machine

/-! The default arm: an opcode none of the six claims, from the decoder through the dispatch to the outcome
(44_unsupported.md R120, R121). -/

namespace Sys2Proof.Machine

/-- An opcode that is none of the six passes all of the decoder's comparisons (44_unsupported.md R121). -/
theorem decodeWord_of_opcOf_not_mem {c : Config} {w : Insn} (hfree : opcOf w ∉ c.opcodes) :
    decodeWord c w = .unsupported (opcOf w) (jtOf w) (jfOf w) (kOf w) := by
  simp only [Config.opcodes, List.mem_cons, List.not_mem_nil, or_false, not_or] at hfree
  obtain ⟨hldabs, hja, hjeq, hjgt, hjge, hret⟩ := hfree
  rw [decodeWord, if_neg hldabs, if_neg hja, if_neg hjeq, if_neg hjgt, if_neg hjge, if_neg hret]

/-- A step that fetches an unclaimed opcode advances, as every fetch does, and then ends the run. -/
theorem step_of_opcOf_not_mem {s : State} (hl : s.Looping) (hip : s.ip < s.inputs.progLen.toNat)
    (hfree : opcOf (s.progRead s.ip) ∉ s.cfg.opcodes) :
    step s = .next (s.advance.terminate (.fault .notImplemented)) := by
  rw [step_of_ip_lt_progLen hl hip, State.fetched, decodeWord_of_opcOf_not_mem hfree, exec_unsupported]

/-- Settles O46: the list of the statement is that of the six opcodes. -/
theorem unclaimedOpcodeFaults : Obligations.UnclaimedOpcodeFaults := fun _ hl hip hfree =>
  ⟨_, step_of_opcOf_not_mem hl hip hfree, State.terminate_phase _ _, State.terminate_outcome _ _⟩

/-- Settles O45: ending a run writes the phase, the outcome and its three status codes, and a Fault is not a
ProgramError. -/
theorem unsupportedEndsRunWithFault : Obligations.UnsupportedEndsRunWithFault := by
  intro s opc jt jf k
  have hclass (c : ProgCause) (p : Nat) : some (.fault .notImplemented) ≠ some (RunOutcome.programError c p) :=
    fun heq => RunOutcome.noConfusion (Option.some.inj heq)
  exact ⟨_, exec_unsupported s opc jt jf k, State.terminate_phase _ _, State.terminate_outcome _ _, hclass,
    State.terminate_out _ _, rfl⟩

end Sys2Proof.Machine

/-! The one way to the outcome `Ok` (60_exceptions.md R126). -/

namespace Sys2Proof.Machine

/-- The action that the classifier answers `Ok` with is the code it is given. -/
theorem classify_eq_ok_iff_ofCode {k a : Word} {p : Nat} {d : Disposition} :
    classify k p = .ok a d ↔ k = a ∧ d.OfCode a := by
  constructor
  · intro hok
    obtain ⟨d', -, hcls⟩ | ⟨-, hcls⟩ := classify_cases k p
    · obtain ⟨rfl, -⟩ := RunOutcome.ok.inj (hcls.symm.trans hok)
      exact ⟨rfl, classify_eq_ok_iff.1 hok⟩
    · exact RunOutcome.noConfusion (hcls.symm.trans hok)
  · rintro ⟨rfl, hd⟩
    exact classify_eq_ok_iff.2 hd

/-- An instruction that ends a run with `Ok` is a RET: any other leaves the outcome alone or ends the run with an error. -/
theorem eq_ret_of_exec_ok {i : Instr} {s t : State} {a : Word} {d : Disposition} (hnone : s.outcome = none)
    (hexec : exec i s = .next t) (hok : t.outcome = some (.ok a d)) : d.OfCode a ∧ ∃ jt jf, i = .ret jt jf a := by
  obtain ⟨_, _, _, -, -, rfl⟩ | ⟨_, _, _, -, -, rfl⟩ | ⟨_, -, rfl⟩ | ⟨jt, jf, k, rfl, rfl⟩ | ⟨_, _, _, _, -, rfl⟩ :=
    exec_cases hexec
  · simp [hnone] at hok
  · simp at hok
  · simp [hnone] at hok
  · obtain ⟨rfl, hd⟩ := classify_eq_ok_iff_ofCode.1 (Option.some.inj hok)
    exact ⟨hd, jt, jf, rfl⟩
  · simp at hok

/-- Settles O26: a step that starts a run leaves no outcome, one out of range ends with an error, and one in range is the
dispatch, which answers `Ok` for a RET of a defined code alone. -/
theorem returnIsTheOnlyNormalEnd : Obligations.ReturnIsTheOnlyNormalEnd := by
  intro s a d hl hnone
  constructor
  · rintro ⟨t, hstep, hok⟩
    obtain ⟨-, rfl⟩ | ⟨-, -, -, -, rfl⟩ | ⟨-, -, -, hip, hexec⟩ := step_cases hstep
    · simp at hok
    · simp at hok
    · exact ⟨hip, eq_ret_of_exec_ok (s := s.advance) hnone hexec hok⟩
  · rintro ⟨hip, hd, jt, jf, hfetched⟩
    obtain ⟨t, hexec, hoks, -⟩ := exec_ret_outcome s.advance jt jf a
    exact ⟨t, by rw [step_of_ip_lt_progLen hl hip, State.fetched, hfetched, hexec], (hoks d).2 hd⟩

end Sys2Proof.Machine

/-! The errors of a command line, and that nothing starts where there is one (60_exceptions.md R142, R144). -/

namespace Sys2Proof.Machine

/-- Every architecture value of a command line is one of the two selectors (92_eei_decisions.md D5). -/
def SelectorsValid (args : List CommandArg) : Prop := ∀ sel, .arch sel ∈ args → sel = 32 ∨ sel = 64

theorem not_selectorsValid_iff {args : List CommandArg} :
    ¬ SelectorsValid args ↔ ∃ sel, .arch sel ∈ args ∧ sel ≠ 32 ∧ sel ≠ 64 := by
  simp only [SelectorsValid, not_forall, not_or, exists_prop]

theorem selectorsValid_cons {a : CommandArg} {as : List CommandArg} :
    SelectorsValid (a :: as) ↔ (∀ sel, a = .arch sel → sel = 32 ∨ sel = 64) ∧ SelectorsValid as := by
  simp only [SelectorsValid, List.mem_cons, or_imp, forall_and, eq_comm (a := a)]

/-- Everything the arguments together can come to: the error of one of them, or a request each. -/
theorem requestsOf_cases (args : List CommandArg) :
    (.unrecognised ∈ args ∧ requestsOf args = .error (.usage .unrecognisedFlag)) ∨
    (¬ SelectorsValid args ∧ requestsOf args = .error (.usage .badArch)) ∨
    (.unrecognised ∉ args ∧ SelectorsValid args ∧ ∃ qs, requestsOf args = .ok qs) := by
  induction args with
  | nil => exact .inr (.inr ⟨List.not_mem_nil, fun _ hmem => absurd hmem List.not_mem_nil, [], rfl⟩)
  | cons a as ih =>
    obtain ⟨rfl, hreq⟩ | ⟨sel, rfl, hsel, hreq⟩ | ⟨hflag, hsels, q, hreq⟩ := a.request_cases
    · exact .inl ⟨List.mem_cons_self, by rw [requestsOf, hreq]⟩
    · exact .inr (.inl ⟨not_selectorsValid_iff.2 ⟨sel, List.mem_cons_self, hsel⟩, by rw [requestsOf, hreq]⟩)
    · have hcons : requestsOf (a :: as) = (requestsOf as).map (q :: ·) := by rw [requestsOf, hreq]
      rw [hcons]
      obtain ⟨hmem, htail⟩ | ⟨hbad, htail⟩ | ⟨hno, hvalid, qs, htail⟩ := ih
      · exact .inl ⟨List.mem_cons_of_mem a hmem, by rw [htail]; rfl⟩
      · exact .inr (.inl ⟨fun hvalid => hbad (selectorsValid_cons.1 hvalid).2, by rw [htail]; rfl⟩)
      · have hno' : .unrecognised ∉ a :: as := List.not_mem_cons_of_ne_of_not_mem hflag.symm hno
        exact .inr (.inr ⟨hno', selectorsValid_cons.2 ⟨hsels, hvalid⟩, q :: qs, by rw [htail]; rfl⟩)

/-- Everything the check of a command line can answer. -/
theorem Invocation.check_cases (inv : Invocation) :
    (.unrecognised ∈ inv.args ∧ inv.check = .error (.usage .unrecognisedFlag)) ∨
    (¬ SelectorsValid inv.args ∧ inv.check = .error (.usage .badArch)) ∨
    (.unrecognised ∉ inv.args ∧ SelectorsValid inv.args ∧ inv.file = none ∧
      inv.check = .error (.usage .missingFile)) ∨
    (.unrecognised ∉ inv.args ∧ SelectorsValid inv.args ∧ inv.file ≠ none ∧ ∃ srcReqs, inv.check = .ok srcReqs) := by
  obtain ⟨hmem, hreqs⟩ | ⟨hbad, hreqs⟩ | ⟨hno, hvalid, qs, hreqs⟩ := requestsOf_cases inv.args
  · exact .inl ⟨hmem, by simp [Invocation.check, hreqs]⟩
  · exact .inr (.inl ⟨hbad, by simp [Invocation.check, hreqs]⟩)
  · cases hfile : inv.file with
    | none => exact .inr (.inr (.inl ⟨hno, hvalid, rfl, by simp [Invocation.check, hreqs, hfile]⟩))
    | some src =>
      have hcheck : inv.check = .ok (src, qs) := by simp [Invocation.check, hreqs, hfile]
      exact .inr (.inr (.inr ⟨hno, hvalid, Option.some_ne_none src, _, hcheck⟩))

theorem boot_of_check_error {inv : Invocation} {e : PreRunError} (h : inv.check = .error e) (c : Config) :
    boot c inv = .error e := by
  simp [boot, h]

/-- The error of a command line is always a usage error. -/
theorem Invocation.eq_usage_of_check_error {inv : Invocation} {e : PreRunError} (h : inv.check = .error e) :
    ∃ cause, e = .usage cause := by
  obtain ⟨-, hcheck⟩ | ⟨-, hcheck⟩ | ⟨-, -, -, hcheck⟩ | ⟨-, -, -, _, hcheck⟩ := inv.check_cases
  · exact ⟨_, Except.error.inj (h.symm.trans hcheck)⟩
  · exact ⟨_, Except.error.inj (h.symm.trans hcheck)⟩
  · exact ⟨_, Except.error.inj (h.symm.trans hcheck)⟩
  · exact nomatch h.symm.trans hcheck

/-- The arguments and the file decide whether the check fails. -/
theorem Invocation.exists_check_error_iff (inv : Invocation) :
    (∃ e, inv.check = .error e) ↔ .unrecognised ∈ inv.args ∨ ¬ SelectorsValid inv.args ∨ inv.file = none := by
  obtain ⟨hmem, hcheck⟩ | ⟨hbad, hcheck⟩ | ⟨-, -, hfile, hcheck⟩ | ⟨hno, hvalid, hfile, _, hcheck⟩ := inv.check_cases
  · exact iff_of_true ⟨_, hcheck⟩ (.inl hmem)
  · exact iff_of_true ⟨_, hcheck⟩ (.inr (.inl hbad))
  · exact iff_of_true ⟨_, hcheck⟩ (.inr (.inr hfile))
  · simp [hcheck, hno, hvalid, hfile]

/-- Settles O50: an error of the check is always a usage error, which `boot` answers unchanged, and the
hypotheses of each clause about a cause leave one case. -/
theorem malformedInvocationIsUsageError : Obligations.MalformedInvocationIsUsageError := by
  intro c inv
  simp only [← not_selectorsValid_iff]
  refine ⟨inv.exists_check_error_iff.symm, fun e hcheck => ⟨boot_of_check_error hcheck c, ?_⟩, ?_⟩
  · obtain ⟨cause, rfl⟩ := Invocation.eq_usage_of_check_error hcheck
    rfl
  obtain ⟨hmem, hcheck⟩ | ⟨hbad, hcheck⟩ | ⟨hno, hvalid, -, hcheck⟩ | ⟨hno, hvalid, hfile, -⟩ := inv.check_cases
  · exact ⟨fun _ _ => boot_of_check_error hcheck c, fun hno => absurd hmem hno, fun hno => absurd hmem hno⟩
  · exact ⟨fun _ hvalid => absurd hvalid hbad, fun _ _ => boot_of_check_error hcheck c,
      fun _ hvalid => absurd hvalid hbad⟩
  · exact ⟨fun hmem => absurd hmem hno, fun _ hbad => absurd hvalid hbad,
      fun _ _ _ => boot_of_check_error hcheck c⟩
  · exact ⟨fun hmem => absurd hmem hno, fun _ hbad => absurd hvalid hbad,
      fun _ _ hnone => absurd hnone hfile⟩

end Sys2Proof.Machine

/-! Exactly when the engine is started, and with which state (70_reset_and_hazards.md R153). -/

namespace Sys2Proof.Machine

theorem Invocation.check_eq_ok_iff {inv : Invocation} {src : ByteSource} {qs : List ContextRequest} :
    inv.check = .ok (src, qs) ↔ requestsOf inv.args = .ok qs ∧ inv.file = some src := by
  rw [Invocation.check]
  cases requestsOf inv.args with
  | error e => simp
  | ok qs' =>
    cases inv.file with
    | none => simp
    | some src' => simp [and_comm]

/-- A run starts just when the check, the loading and the building all succeed, and then in this one state. -/
theorem boot_eq_ok_iff {c : Config} {inv : Invocation} {s : State} :
    boot c inv = .ok s ↔ ∃ src qs p r, inv.check = .ok (src, qs) ∧ loadProgram src = .ok p ∧ buildContext qs = .ok r ∧
      s = { State.reset with inputs := inputsOf p r, cfg := c }.restart := by
  rw [boot]
  cases inv.check with
  | error e => simp
  | ok srcReqs =>
    obtain ⟨src, qs⟩ := srcReqs
    cases hload : loadProgram src with
    | error e => simp [hload]
    | ok p =>
      cases hbuild : buildContext qs with
      | error e => simp [hload, hbuild]
      | ok r => simp [hload, hbuild, eq_comm]

/-- Settles O51: the only state that `boot` answers is the restart of the inputs loaded and built. -/
theorem startNeedsEveryPart : Obligations.StartNeedsEveryPart := by
  intro c inv s hboot
  obtain ⟨src, qs, p, r, hcheck, hload, hbuild, rfl⟩ := boot_eq_ok_iff.1 hboot
  obtain ⟨hreqs, hfile⟩ := Invocation.check_eq_ok_iff.1 hcheck
  exact ⟨src, qs, p, r, hreqs, hfile, hload, hbuild, State.restart_inputs _⟩

end Sys2Proof.Machine

/-! The invariant of a run: a start establishes it, and what a step writes keeps it (10_state.md sections 2, 5 and 6;
60_exceptions.md sections 2 and 3). -/

namespace Sys2Proof.Machine

section
variable {s t : State}

/-! ## A run that has not ended -/

/-- Phase, outcome and outputs are still as the start left them. -/
structure State.NotEnded (s : State) : Prop where
  phase_eq : s.phase = .run
  outcome_eq : s.outcome = none
  out_eq : s.out = Outputs.reset

theorem State.OutcomeAgrees.notEnded (h : s.OutcomeAgrees) (hrun : s.phase = .run) : s.NotEnded := by
  unfold State.OutcomeAgrees at h
  split at h
  case h_1 hnone => exact ⟨hrun, hnone, h.2⟩
  all_goals
    have hhalt : s.phase = .halt := h.1
    simp [hrun] at hhalt

theorem State.NotEnded.outcomeAgrees (h : s.NotEnded) : s.OutcomeAgrees := by
  simp only [State.OutcomeAgrees, h.outcome_eq]
  exact ⟨h.phase_eq, h.out_eq⟩

theorem State.NotEnded.ipFrozen (h : s.NotEnded) : s.IpFrozen := by
  simp only [State.IpFrozen, h.outcome_eq]

theorem State.restart_notEnded (s : State) : s.restart.NotEnded := ⟨rfl, rfl, rfl⟩

theorem State.NotEnded.advance (h : s.NotEnded) : s.advance.NotEnded := ⟨h.phase_eq, h.outcome_eq, h.out_eq⟩

theorem State.NotEnded.setAcc (h : s.NotEnded) (v : Word) : (s.setAcc v).NotEnded :=
  ⟨h.phase_eq, h.outcome_eq, h.out_eq⟩

theorem State.NotEnded.jump (h : s.NotEnded) (d : Nat) : (s.jump d).NotEnded := ⟨h.phase_eq, h.outcome_eq, h.out_eq⟩

/-! ## The outputs of a run that ends -/

/-- `ERRNO` after a RET, as a number (10_state.md R18). -/
theorem lowHalf_toNat (k : Word) : (k.extractLsb' 0 16).toNat = k.toNat % 2 ^ 16 := by
  simp [BitVec.extractLsb'_toNat]

theorem State.NotEnded.outcomeAgrees_outOfRange (h : s.NotEnded) :
    (s.terminate (.programError .outOfRange s.pos)).OutcomeAgrees := by
  refine And.intro rfl (And.intro rfl ?_)
  rw [State.terminate_out, h.out_eq]
  rfl

theorem State.NotEnded.outcomeAgrees_notImplemented (h : s.NotEnded) :
    (s.terminate (.fault .notImplemented)).OutcomeAgrees := by
  refine And.intro rfl ?_
  rw [State.terminate_out, h.out_eq]
  rfl

/-- Whatever the classifier answers, the outputs after a RET say so. -/
theorem State.outcomeAgrees_ret (s : State) (k : Word) :
    ((s.setAction k).terminate (classify k s.pos)).OutcomeAgrees := by
  obtain ⟨d, hd, hcls⟩ | ⟨hnone, hcls⟩ := classify_cases k s.pos
  · rw [hcls]
    exact And.intro rfl ⟨hd, rfl, rfl, rfl, rfl, lowHalf_toNat k⟩
  · rw [hcls]
    exact And.intro rfl ⟨rfl, rfl, rfl, rfl, hnone, lowHalf_toNat k⟩

/-! ## The invariant -/

/-- A start establishes the invariant for legal parameters and canonical memories. -/
theorem State.restart_runInv (hcfg : s.cfg.wf = true) (hmem : s.MemoryCanonical) : s.restart.RunInv where
  cfgLegal := hcfg
  indexesFit := ⟨Nat.two_pow_pos _, Nat.two_pow_pos _⟩
  accIsByte := Nat.zero_le _
  scratchZero := rfl
  posIsIndex := .inr rfl
  outcomeAgrees := s.restart_notEnded.outcomeAgrees
  ipFrozen := s.restart_notEnded.ipFrozen
  memoryCanonical := hmem

/-- The fetch makes `pos` the index of an instruction, and the advance stays within the register. -/
theorem State.RunInv.advance (h : s.RunInv) (hrun : s.NotEnded) (hip : s.ip < s.inputs.progLen.toNat) :
    s.advance.RunInv where
  cfgLegal := h.cfgLegal
  indexesFit := ⟨addIpBits_lt s.cfg s.ip 1, h.indexesFit.1⟩
  accIsByte := h.accIsByte
  scratchZero := h.scratchZero
  posIsIndex := .inl hip
  outcomeAgrees := hrun.advance.outcomeAgrees
  ipFrozen := hrun.advance.ipFrozen
  memoryCanonical := h.memoryCanonical

theorem State.RunInv.jump (h : s.RunInv) (hrun : s.NotEnded) (d : Nat) : (s.jump d).RunInv where
  cfgLegal := h.cfgLegal
  indexesFit := ⟨addIpBits_lt s.cfg s.ip d, h.indexesFit.2⟩
  accIsByte := h.accIsByte
  scratchZero := h.scratchZero
  posIsIndex := h.posIsIndex
  outcomeAgrees := (hrun.jump d).outcomeAgrees
  ipFrozen := (hrun.jump d).ipFrozen
  memoryCanonical := h.memoryCanonical

theorem State.RunInv.setAcc (h : s.RunInv) {v : Word} (hv : v.toNat ≤ 255) : (s.setAcc v).RunInv where
  cfgLegal := h.cfgLegal
  indexesFit := h.indexesFit
  accIsByte := hv
  scratchZero := h.scratchZero
  posIsIndex := h.posIsIndex
  outcomeAgrees := h.outcomeAgrees
  ipFrozen := h.ipFrozen
  memoryCanonical := h.memoryCanonical

/-- Ending a run leaves the part of the invariant that is not about the outcome as it is. -/
theorem State.RunInv.of_frame (h : s.RunInv)
    (hframe : t = { s with phase := t.phase, outcome := t.outcome, out := t.out }) (hagrees : t.OutcomeAgrees)
    (hfrozen : t.IpFrozen) : t.RunInv := by
  rw [hframe] at hagrees hfrozen ⊢
  exact ⟨h.cfgLegal, h.indexesFit, h.accIsByte, h.scratchZero, h.posIsIndex, hagrees, hfrozen, h.memoryCanonical⟩

/-! ## Instructions and steps -/

/-- An instruction that runs where the fetch has left `ip`, one past `pos`, keeps the invariant. -/
theorem exec_runInv {i : Instr} (h : s.RunInv) (hrun : s.NotEnded) (hip : s.ip = s.pos + 1)
    (hexec : exec i s = .next t) : t.RunInv := by
  obtain ⟨_, _, k, -, -, rfl⟩ | ⟨_, _, _, -, -, rfl⟩ | ⟨d, -, rfl⟩ | ⟨_, _, k, -, rfl⟩ | ⟨_, _, _, _, -, rfl⟩ :=
    exec_cases hexec
  · exact h.setAcc (loadByte_toNat_le s k)
  · exact h.of_frame rfl hrun.outcomeAgrees_outOfRange (.inl hip)
  · exact h.jump hrun d
  · have hfrozen : ((s.setAction k).terminate (classify k s.pos)).IpFrozen := by
      obtain ⟨d, -, hcls⟩ | ⟨-, hcls⟩ := classify_cases k s.pos <;> rw [hcls] <;> exact hip
    exact h.of_frame rfl (s.outcomeAgrees_ret k) hfrozen
  · exact h.of_frame rfl hrun.outcomeAgrees_notImplemented hip

end

/-- Settles O21: a start establishes the invariant, a failed range test ends the run at `pos` with `ip` beyond the
program, and a dispatch finds the invariant as the advance has kept it. -/
theorem stepKeepsRunInv : Obligations.StepKeepsRunInv := by
  intro s t h hstep
  obtain ⟨-, rfl⟩ | ⟨-, hphase, -, hip, rfl⟩ | ⟨hstart, hphase, hlen, hip, hexec⟩ := step_cases hstep
  · exact State.restart_runInv h.cfgLegal h.memoryCanonical
  · exact h.of_frame rfl (h.outcomeAgrees.notEnded hphase).outcomeAgrees_outOfRange (.inr hip)
  · have hrun : s.NotEnded := h.outcomeAgrees.notEnded hphase
    have hl : s.Looping := ⟨hstart, hphase, hlen⟩
    exact exec_runInv (h.advance hrun hip) hrun.advance (hl.advance_ip (ipBits_of_wf h.cfgLegal) hip) hexec

/-- Settles O15: the machine at reset is as a start with empty memories leaves it. -/
theorem resetMeetsRunInv : Obligations.ResetMeetsRunInv :=
  ⟨State.restart_runInv (s := State.reset) defaultConfig_wf ⟨State.reset_prog_wf, State.reset_record_wf⟩,
    ⟨rfl, rfl, Nat.zero_le _⟩⟩

end Sys2Proof.Machine

/-! When a run stops: what each instruction does to the phase, the outcome and the outputs, and the steps that HALT and
an illegal `PROG_LEN` do not allow (10_state.md R17; 60_exceptions.md R131; 20_memory.md R33). -/

namespace Sys2Proof.Machine

section
variable {i : Instr} {s t : State}

theorem exec_start (hexec : exec i s = .next t) : t.start = s.start := by
  obtain ⟨_, _, _, -, -, rfl⟩ | ⟨_, _, _, -, -, rfl⟩ | ⟨_, -, rfl⟩ | ⟨_, _, _, -, rfl⟩ | ⟨_, _, _, _, -, rfl⟩ :=
    exec_cases hexec
  · exact State.setAcc_start _ _
  · exact State.terminate_start _ _
  · exact State.jump_start _ _
  · rw [State.terminate_start, State.setAction_start]
  · exact State.terminate_start _ _

/-- An instruction leaves phase, outcome and outputs alone or ends the run. -/
theorem exec_keeps_run_or_ends (hexec : exec i s = .next t) :
    (t.phase = s.phase ∧ t.outcome = s.outcome ∧ t.out = s.out) ∨ (t.phase = .halt ∧ t.outcome ≠ none) := by
  obtain ⟨_, _, _, -, -, rfl⟩ | ⟨_, _, _, -, -, rfl⟩ | ⟨_, -, rfl⟩ | ⟨_, _, _, -, rfl⟩ | ⟨_, _, _, _, -, rfl⟩ :=
    exec_cases hexec
  · exact .inl ⟨State.setAcc_phase _ _, State.setAcc_outcome _ _, State.setAcc_out _ _⟩
  · exact .inr ⟨State.terminate_phase _ _, Option.some_ne_none _⟩
  · exact .inl ⟨State.jump_phase _ _, State.jump_outcome _ _, State.jump_out _ _⟩
  · exact .inr ⟨State.terminate_phase _ _, Option.some_ne_none _⟩
  · exact .inr ⟨State.terminate_phase _ _, Option.some_ne_none _⟩

theorem step_of_halt (hstart : s.start = false) (hhalt : s.phase = .halt) : step s = .fault .halted := by
  simp [step, hstart, hhalt]

theorem step_of_progLen_gt (hstart : s.start = false) (hrun : s.phase = .run)
    (hlen : 4096 < s.inputs.progLen.toNat) : step s = .refused .progLenAboveMax := by
  have hillegal : ¬ s.progLenLegal = true := fun hlegal => Nat.not_le.2 hlen (progLenLegal_iff.1 hlegal)
  simp [step, hstart, hrun, hillegal]

theorem State.Looping.step_answers_next (hl : s.Looping) : ∃ t, step s = .next t := by
  by_cases hip : s.ip < s.inputs.progLen.toNat
  · rw [step_of_ip_lt_progLen hl hip]
    exact exec_answers_next _ _
  · exact ⟨_, step_of_progLen_le_ip hl (Nat.le_of_not_lt hip)⟩

/-- A looping step keeps the engine ready to loop, with the outcome it had, or ends the run. -/
theorem State.Looping.step_loops_or_ends (hl : s.Looping) (hstep : step s = .next t) :
    t.start = false ∧ ((t.phase = .run ∧ t.outcome = s.outcome) ∨ (t.phase = .halt ∧ t.outcome ≠ none)) := by
  obtain ⟨hstart, -⟩ | ⟨-, -, -, -, rfl⟩ | ⟨-, -, -, -, hexec⟩ := step_cases hstep
  · simp [hl.noStart] at hstart
  · exact ⟨hl.noStart, .inr ⟨State.rangeError_phase s, Option.some_ne_none _⟩⟩
  · refine ⟨(exec_start hexec).trans hl.noStart, ?_⟩
    obtain ⟨hphase, houtcome, -⟩ | hends := exec_keeps_run_or_ends hexec
    · exact .inl ⟨hphase.trans hl.running, houtcome⟩
    · exact .inr hends

/-- A step that does not start a run is one of the loop. -/
theorem State.Looping.of_step (hstart : s.start = false) (hstep : step s = .next t) : s.Looping := by
  obtain ⟨hstarted, -⟩ | ⟨-, hrun, hlen, -, -⟩ | ⟨-, hrun, hlen, -, -⟩ := step_cases hstep
  · simp [hstart] at hstarted
  · exact ⟨hstart, hrun, hlen⟩
  · exact ⟨hstart, hrun, hlen⟩

/-- `start`, the phase and `PROG_LEN` decide whether there is a step. -/
theorem step_stops_cases (s : State) :
    ((s.start = true ∨ s.Looping) ∧ ∃ t, step s = .next t) ∨
    (s.start = false ∧ s.phase = .halt ∧ step s = .fault .halted) ∨
    (s.start = false ∧ s.phase = .run ∧ 4096 < s.inputs.progLen.toNat ∧ step s = .refused .progLenAboveMax) := by
  cases hstart : s.start with
  | true => exact .inl ⟨.inl rfl, _, step_of_start hstart⟩
  | false =>
    cases hphase : s.phase with
    | halt => exact .inr (.inl ⟨rfl, rfl, step_of_halt hstart hphase⟩)
    | run =>
      by_cases hlen : s.inputs.progLen.toNat ≤ 4096
      · have hl : s.Looping := ⟨hstart, hphase, hlen⟩
        exact .inl ⟨.inr hl, hl.step_answers_next⟩
      · have hlong : 4096 < s.inputs.progLen.toNat := Nat.lt_of_not_le hlen
        exact .inr (.inr ⟨rfl, rfl, hlong, step_of_progLen_gt hstart hphase hlong⟩)

end

/-- Settles O20: the three cases exclude each other, and each has its one answer. -/
theorem stepStopsExactlyWhere : Obligations.StepStopsExactlyWhere := by
  intro s
  obtain ⟨hstart | hl, t, hstep⟩ | ⟨hstart, hphase, hstep⟩ | ⟨hstart, hphase, hlen, hstep⟩ := step_stops_cases s
  · simp [hstep, hstart]
  · have hlegal : ¬ 4096 < s.inputs.progLen.toNat := Nat.not_lt.2 hl.lenLegal
    simp [hstep, hl.running, hlegal]
  · simp [hstep, hstart, hphase]
  · simp [hstep, hstart, hphase, hlen, eq_comm]

/-- Settles O19: the step that produces an outcome halts the engine without asserting `start`, and a halted engine has
no step. -/
theorem everyOutcomeIsFinal : Obligations.EveryOutcomeIsFinal := by
  intro s t hstart hnone hstep hended
  obtain ⟨hnostart, ⟨-, hkept⟩ | ⟨hhalt, -⟩⟩ := (State.Looping.of_step hstart hstep).step_loops_or_ends hstep
  · exact absurd (hkept.trans hnone) hended
  · exact ⟨hhalt, run_succ_of_fault (step_of_halt hnostart hhalt)⟩

/-- Settles O18: ending the run writes the phase, the outcome and the three status codes of a range error. -/
theorem rangeTestFailureEndsRun : Obligations.RangeTestFailureEndsRun := fun s hl hip =>
  ⟨s.rangeError, step_of_progLen_le_ip hl hip, s.rangeError_phase, s.rangeError_outcome, s.rangeError_pos,
    s.rangeError_out, rfl⟩

/-- Settles O16: the step is the restart, which is the reset state with the inputs and the parameters as they were. -/
theorem startResetsEngine : Obligations.StartResetsEngine := by
  intro s hstart
  have hscratch (i : Fin 16) : s.restart.scratch[i.val] = 0 := by simp
  exact ⟨s.restart, step_of_start hstart, rfl, rfl, rfl, hscratch, rfl, rfl, rfl, rfl, rfl, rfl, rfl, rfl, rfl, rfl⟩

end Sys2Proof.Machine

/-! A RET, its outcome and the status outputs it drives (43_return_and_action.md R105, section 3). -/

namespace Sys2Proof.Machine

/-- Settles O39: the classifier finds the disposition the constant is a code of, or none. -/
theorem retEndsRunWithItsConstant : Obligations.RetEndsRunWithItsConstant := by
  intro s jt jf k
  refine ⟨_, exec_ret s jt jf k, State.terminate_phase _ _, rfl, ?_, rfl⟩
  obtain ⟨d, hd, hcls⟩ | ⟨hnone, hcls⟩ := classify_cases k s.pos
  · exact .inl ⟨d, hd, congrArg some hcls⟩
  · exact .inr ⟨hnone, congrArg some hcls⟩

/-- The status codes of what the classifier answers. -/
theorem classify_codes_of_ofCode {d : Disposition} {k : Word} (h : d.OfCode k) (p : Nat) :
    (classify k p).statusCode = 1 ∧ (classify k p).causeCode = 0 ∧ (classify k p).dispCode = d.code := by
  rw [classify_eq_ok_iff.2 h]
  exact ⟨rfl, rfl, rfl⟩

/-- A code with top half 3 is an ErrnoReturn of its low half. -/
theorem Disposition.ofCode_errnoReturn_of_top {k : Word} (h : k.toNat / 2 ^ 16 = 3) :
    (Disposition.errnoReturn (k.extractLsb' 0 16)).OfCode k := by
  have hlow := lowHalf_toNat k
  show k.toNat = 0x00030000 + _
  omega

/-- Settles O44: the outputs are the codes of the classifier's answer, and ERRNO is the low half of `k`. -/
theorem returnDrivesStatusOutputs : Obligations.ReturnDrivesStatusOutputs := by
  intro s jt jf k
  refine ⟨_, exec_ret s jt jf k, lowHalf_toNat k, fun hk => ?_, fun hk => ?_, fun hk => ?_, fun hk => ?_,
    fun hnone => ?_⟩
  · exact classify_codes_of_ofCode (d := .kill) hk s.pos
  · exact classify_codes_of_ofCode (d := .trap) hk s.pos
  · exact classify_codes_of_ofCode (Disposition.ofCode_errnoReturn_of_top hk) s.pos
  · exact classify_codes_of_ofCode (d := .allow) hk s.pos
  · rw [classify_eq_undefinedAction hnone]
    exact ⟨rfl, rfl, rfl⟩

end Sys2Proof.Machine

/-! A canonical memory lists exactly the addresses that read as something other than 0 (20_memory.md section 1). -/

namespace Sys2Proof.Machine

/-- Memories that read alike start at the same address: below its own first cell the second reads as 0. -/
theorem Memory.first_le_first {lo x x' : Nat} {v v' : Byte} {rest rest' : Memory}
    (hm : Memory.wfFrom lo ((x, v) :: rest) = true) (hm' : Memory.wfFrom lo ((x', v') :: rest') = true)
    (hread : Memory.read ((x, v) :: rest) x = Memory.read ((x', v') :: rest') x) : x' ≤ x := by
  obtain ⟨-, hv, -⟩ := (Memory.wfFrom_cons ..).1 hm
  obtain ⟨-, hv', hr'⟩ := (Memory.wfFrom_cons ..).1 hm'
  by_contra hlt
  rw [Memory.read_below (Nat.lt_of_not_le hlt) ((Memory.wfFrom_cons ..).2 ⟨Nat.le_refl x', hv', hr'⟩)] at hread
  exact hv (by simpa [Memory.read] using hread)

theorem Memory.eq_of_read_eq : ∀ {m m' : Memory} {lo : Nat}, Memory.wfFrom lo m = true → Memory.wfFrom lo m' = true →
    (∀ a, Memory.read m a = Memory.read m' a) → m = m'
  | [], [], _, _, _, _ => rfl
  | [], (x', v') :: rest', lo, _, hm', hread => by
    obtain ⟨-, hv', -⟩ := (Memory.wfFrom_cons ..).1 hm'
    exact absurd (by simpa [Memory.read] using (hread x').symm) hv'
  | (x, v) :: rest, [], lo, hm, _, hread => by
    obtain ⟨-, hv, -⟩ := (Memory.wfFrom_cons ..).1 hm
    exact absurd (by simpa [Memory.read] using hread x) hv
  | (x, v) :: rest, (x', v') :: rest', lo, hm, hm', hread => by
    obtain rfl : x = x' :=
      Nat.le_antisymm (Memory.first_le_first hm' hm (hread x').symm) (Memory.first_le_first hm hm' (hread x))
    obtain rfl : v = v' := by simpa [Memory.read] using hread x
    obtain ⟨-, -, hr⟩ := (Memory.wfFrom_cons ..).1 hm
    obtain ⟨-, -, hr'⟩ := (Memory.wfFrom_cons ..).1 hm'
    have hrest (a : Nat) : Memory.read rest a = Memory.read rest' a := by
      by_cases hax : x = a
      · subst hax
        rw [Memory.read_below (Nat.lt_succ_self x) hr, Memory.read_below (Nat.lt_succ_self x) hr']
      · simpa [Memory.read, hax] using hread a
    rw [Memory.eq_of_read_eq hr hr' hrest]

/-- Settles O6: canonical memories that read alike agree cell by cell, from the least address up. -/
theorem canonicalMemoryIsItsReads : Obligations.CanonicalMemoryIsItsReads := fun _ _ => Memory.eq_of_read_eq

end Sys2Proof.Machine

/-! When loading fails, and what does not make it fail (20_memory.md R44 to R46). -/

namespace Sys2Proof.Machine

theorem loadProgram_stream_of_gt {bytes : List Byte} (h : progMax < recordCount bytes) :
    loadProgram (.stream bytes) = .error (.fault .resourceExhausted) := if_neg (Nat.not_le.2 h)

/-- What loads is a stream within the limit. -/
theorem eq_programOf_of_loadProgram {src : ByteSource} {p : Program} (h : loadProgram src = .ok p) :
    ∃ bytes, recordCount bytes ≤ progMax ∧ p = programOf bytes := by
  cases src with
  | stream bytes =>
    by_cases hfits : recordCount bytes ≤ progMax
    · rw [loadProgram_stream_of_le hfits] at h
      exact ⟨bytes, hfits, (Except.ok.inj h).symm⟩
    · rw [loadProgram_stream_of_gt (Nat.lt_of_not_le hfits)] at h
      cases h
  | unreadable => cases h
  | allocationFails => cases h

/-- Fewer than eight bytes after `n` whole records are not counted. -/
theorem recordCount_append {n : Nat} {bytes tail : List Byte} (hbytes : bytes.length = 8 * n)
    (htail : tail.length < 8) : recordCount (bytes ++ tail) = n := by
  rw [recordCount, List.length_append]
  omega

theorem programOf_append {n : Nat} {bytes tail : List Byte} (hbytes : bytes.length = 8 * n) (htail : tail.length < 8) :
    programOf (bytes ++ tail) = { len := BitVec.ofNat 13 n, mem := Memory.ofBytesAt 0 bytes } := by
  rw [programOf, recordCount_append hbytes htail, ← hbytes, List.take_left]

/-- Settles O8: with the dangling bytes or without, the program is that of the whole records. -/
theorem loaderDropsDanglingBytes : Obligations.LoaderDropsDanglingBytes := by
  intro n bytes tail hn hbytes htail
  have hload {tail : List Byte} (htail : tail.length < 8) :
      loadProgram (.stream (bytes ++ tail)) = .ok { len := BitVec.ofNat 13 n, mem := Memory.ofBytesAt 0 bytes } := by
    rw [loadProgram_stream_of_le ((recordCount_append hbytes htail).trans_le hn), programOf_append hbytes htail]
  have hlen : (BitVec.ofNat 13 n).toNat = n := (BitVec.toNat_ofNat _ _).trans (Nat.mod_eq_of_lt (by omega))
  exact ⟨_, hload htail, hlen, by simpa using hload (tail := []) (by decide)⟩

/-- Settles O9: 32776 bytes are the first that hold 4097 whole records. -/
theorem loaderFailsExactlyBeyondItsLimits : Obligations.LoaderFailsExactlyBeyondItsLimits := by
  refine ⟨fun bytes => ?_, rfl, rfl⟩
  by_cases hfits : recordCount bytes ≤ progMax
  · have hshort : ¬ 32776 ≤ bytes.length := by
      rw [recordCount, progMax] at hfits
      omega
    simp [loadProgram_stream_of_le hfits, hshort]
  · have hlong : 32776 ≤ bytes.length := by
      rw [recordCount, progMax] at hfits
      omega
    exact iff_of_true (loadProgram_stream_of_gt (Nat.lt_of_not_le hfits)) hlong

end Sys2Proof.Machine

/-! What the context builder keeps through a list of requests (20_memory.md R50, R51). -/

namespace Sys2Proof.Machine

section
variable {r r' : SyscallRecord} {q : ContextRequest} {qs qs' : List ContextRequest}

theorem SyscallRecord.applyAll_cons_eq_ok_iff :
    r.applyAll (q :: qs) = .ok r' ↔ ∃ r₁, r.apply q = .ok r₁ ∧ r₁.applyAll qs = .ok r' := by
  rw [SyscallRecord.applyAll]
  cases r.apply q with
  | error e => simp
  | ok r₁ => simp

theorem SyscallRecord.applyAll_append_of_ok (h : r.applyAll qs = .ok r') :
    r.applyAll (qs ++ qs') = r'.applyAll qs' := by
  induction qs generalizing r with
  | nil => rw [Except.ok.inj h, List.nil_append]
  | cons q qs ih =>
    obtain ⟨r₁, hq, hqs⟩ := SyscallRecord.applyAll_cons_eq_ok_iff.1 h
    rw [List.cons_append, SyscallRecord.applyAll, hq]
    exact ih hqs

/-! ## What no request asks for -/

/-- A request changes only the field it is about. -/
theorem SyscallRecord.apply_keeps (h : r.apply q = .ok r') :
    ((∀ a, .arch a ≠ q) → r'.arch = r.arch) ∧ ((∀ n, .number n ≠ q) → r'.number = r.number) ∧
      ∀ i : Fin 6, (∀ v, .arg i v ≠ q) → r'.args[i.val] = r.args[i.val] := by
  obtain ⟨a, rfl, -, rfl⟩ | ⟨n, rfl, rfl⟩ | ⟨j, v, rfl, rfl⟩ := SyscallRecord.apply_cases h
  · exact ⟨fun hno => absurd rfl (hno a), fun _ => rfl, fun _ _ => rfl⟩
  · exact ⟨fun _ => rfl, fun hno => absurd rfl (hno n), fun _ _ => rfl⟩
  · refine ⟨fun _ => rfl, fun _ => rfl, fun i hno => ?_⟩
    have hne : j.val ≠ i.val := fun hij => hno v (by rw [Fin.ext hij])
    exact Vector.getElem_set_ne j.isLt i.isLt hne

/-- What a list of requests does not ask for stays as it was. -/
theorem SyscallRecord.applyAll_keeps (h : r.applyAll qs = .ok r') :
    ((∀ a, .arch a ∉ qs) → r'.arch = r.arch) ∧ ((∀ n, .number n ∉ qs) → r'.number = r.number) ∧
      ∀ i : Fin 6, (∀ v, .arg i v ∉ qs) → r'.args[i.val] = r.args[i.val] := by
  induction qs generalizing r with
  | nil =>
    obtain rfl := Except.ok.inj h
    exact ⟨fun _ => rfl, fun _ => rfl, fun _ _ => rfl⟩
  | cons q qs ih =>
    obtain ⟨r₁, hq, hqs⟩ := SyscallRecord.applyAll_cons_eq_ok_iff.1 h
    obtain ⟨harch, hnumber, harg⟩ := SyscallRecord.apply_keeps hq
    obtain ⟨harchs, hnumbers, hargs⟩ := ih hqs
    simp only [List.mem_cons, not_or, forall_and]
    exact ⟨fun hno => (harchs hno.2).trans (harch hno.1), fun hno => (hnumbers hno.2).trans (hnumber hno.1),
      fun i hno => (hargs i hno.2).trans (harg i hno.1)⟩

/-! ## Once an argument is set -/

theorem SyscallRecord.apply_argSet (h : r.apply q = .ok r') (hset : r.argSet = true ∨ ∃ i v, q = .arg i v) :
    r'.argSet = true := by
  obtain ⟨a, rfl, hno, -⟩ | ⟨n, rfl, rfl⟩ | ⟨i, v, -, rfl⟩ := SyscallRecord.apply_cases h
  · simp [hno] at hset
  · simpa using hset
  · rfl

/-- After a request that sets an argument, the record says so. -/
theorem SyscallRecord.applyAll_argSet (h : r.applyAll qs = .ok r')
    (hset : r.argSet = true ∨ ∃ i v, .arg i v ∈ qs) : r'.argSet = true := by
  induction qs generalizing r with
  | nil =>
    obtain rfl := Except.ok.inj h
    simpa using hset
  | cons q qs ih =>
    obtain ⟨r₁, hq, hqs⟩ := SyscallRecord.applyAll_cons_eq_ok_iff.1 h
    refine ih hqs ?_
    obtain hset | ⟨i, v, hmem⟩ := hset
    · exact .inl (SyscallRecord.apply_argSet hq (.inl hset))
    · obtain hhead | htail := List.mem_cons.1 hmem
      · exact .inl (SyscallRecord.apply_argSet hq (.inr ⟨i, v, hhead.symm⟩))
      · exact .inr ⟨i, v, htail⟩

theorem SyscallRecord.applyAll_arch_of_argSet (h : r.argSet = true) (a : Arch) :
    r.applyAll (.arch a :: qs) = .error (.usage .archAfterArgument) := by
  simp [SyscallRecord.applyAll, SyscallRecord.apply, h]

end

/-- Settles O11: what is not asked for stays as in the default record. -/
theorem unspecifiedContextIsDefault : Obligations.UnspecifiedContextIsDefault := by
  intro qs r hbuild
  obtain ⟨harch, hnumber, hargs⟩ := SyscallRecord.applyAll_keeps hbuild
  have hzero (i : Fin 6) : SyscallRecord.default.args[i.val] = 0 := by simp [SyscallRecord.default]
  exact ⟨harch, hnumber, fun i hno => (hargs i hno).trans (hzero i)⟩

/-- Settles O12: the requests before the tag request leave a record with an argument set. -/
theorem archAfterArgumentIsUsageError : Obligations.ArchAfterArgumentIsUsageError := by
  intro before between after i v a r hbuild
  have hset : r.argSet = true := SyscallRecord.applyAll_argSet hbuild (.inr ⟨i, v, by simp⟩)
  exact (SyscallRecord.applyAll_append_of_ok hbuild).trans (SyscallRecord.applyAll_arch_of_argSet hset a)

end Sys2Proof.Machine

/-! The bytes of the record image, each at its offset (20_memory.md R35, D4). -/

namespace Sys2Proof.Machine

theorem length_leBytes (n : Nat) {w : Nat} (v : BitVec w) : (leBytes n v).length = n := by
  simp [leBytes]

/-- Byte `j` of a value, least significant first. -/
theorem getD_leBytes_toNat {n j : Nat} (hj : j < n) {w : Nat} (v : BitVec w) :
    ((leBytes n v).getD j 0).toNat = v.toNat / 2 ^ (8 * j) % 2 ^ 8 := by
  simp [leBytes, hj, BitVec.extractLsb'_toNat, Nat.shiftRight_eq_div_pow]

/-- Values of `n` bytes each, one after the other: byte `j` of value `i` stands at `n * i + j`. -/
theorem getD_flatMap_leBytes {n j : Nat} (hj : j < n) {w : Nat} : ∀ (vs : List (BitVec w)) {i : Nat}, i < vs.length →
    (vs.flatMap (leBytes n)).getD (n * i + j) 0 = (leBytes n (vs.getD i 0)).getD j 0
  | v :: vs, 0, _ => by
    have hin : n * 0 + j < (leBytes n v).length := by rw [length_leBytes]; omega
    rw [List.flatMap_cons, List.getD_append _ _ _ _ hin]
    simp
  | v :: vs, i + 1, hi => by
    have hsplit : n * (i + 1) + j = (leBytes n v).length + (n * i + j) := by rw [length_leBytes]; ring
    rw [List.flatMap_cons, hsplit, List.getD_append_right _ _ _ _ (Nat.le_add_right ..), Nat.add_sub_cancel_left,
      getD_flatMap_leBytes hj vs (Nat.lt_of_succ_lt_succ hi), List.getD_cons_succ]

/-- Byte `j` of argument `i`, behind a header. -/
theorem getD_append_args_toNat {n j : Nat} (hj : j < n) (header : List Byte) (args : Vector (BitVec 64) 6) (i : Fin 6) :
    ((header ++ args.toList.flatMap (leBytes n)).getD (header.length + n * i.val + j) 0).toNat
      = args[i.val].toNat / 2 ^ (8 * j) % 2 ^ 8 := by
  have hlen : i.val < args.toList.length := by simp
  have harg : args.toList.getD i.val 0 = args[i.val] := by simp [List.getD_eq_getElem?_getD]
  rw [Nat.add_assoc, List.getD_append_right _ _ _ _ (Nat.le_add_right ..), Nat.add_sub_cancel_left,
    getD_flatMap_leBytes hj _ hlen, getD_leBytes_toNat hj, harg]

theorem SyscallRecord.image_bits32 {r : SyscallRecord} (h : r.arch = .bits32) :
    r.image = leBytes 4 r.number ++ r.args.toList.flatMap (leBytes 4) := by
  simp only [SyscallRecord.image, h]

theorem SyscallRecord.image_bits64 {r : SyscallRecord} (h : r.arch = .bits64) :
    r.image = leBytes 4 r.number ++ List.replicate 4 0 ++ r.args.toList.flatMap (leBytes 8) := by
  simp only [SyscallRecord.image, h]

/-- The number stands first, whatever follows it. -/
theorem getD_number_toNat {j : Nat} (hj : j < 4) (n : Word) (rest : List Byte) :
    ((leBytes 4 n ++ rest).getD j 0).toNat = n.toNat / 2 ^ (8 * j) % 2 ^ 8 := by
  rw [List.getD_append _ _ _ _ (by rwa [length_leBytes]), getD_leBytes_toNat hj]

/-- Settles O10: the header is the number, with four zeros after it under the 64-bit tag, and the six arguments follow
in 4 or 8 bytes each. -/
theorem recordImageLayout : Obligations.RecordImageLayout := by
  intro r
  refine ⟨fun harch => ?_, fun harch => ?_⟩
  · rw [SyscallRecord.image_bits32 harch]
    refine ⟨?_, fun j hj => getD_number_toNat hj _ _, fun i j hj => ?_⟩
    · simp [length_leBytes]
    · simpa only [length_leBytes] using getD_append_args_toNat hj (leBytes 4 r.number) r.args i
  · rw [SyscallRecord.image_bits64 harch]
    have hheader : (leBytes 4 r.number ++ List.replicate 4 (0 : Byte)).length = 8 := by simp [length_leBytes]
    refine ⟨?_, fun j hj => ?_, fun j hlow hhigh => ?_, fun i j hj => ?_⟩
    · simp [length_leBytes]
    · rw [List.append_assoc]
      exact getD_number_toNat hj _ _
    · have hnumber := length_leBytes 4 r.number
      rw [List.getD_append _ _ _ _ (by omega), List.getD_append_right _ _ _ _ (by omega),
        List.getD_replicate _ (by omega)]
    · simpa only [hheader] using
        getD_append_args_toNat hj (leBytes 4 r.number ++ List.replicate 4 (0 : Byte)) r.args i

end Sys2Proof.Machine

/-! A run that starts (70_reset_and_hazards.md R150, R153). -/

namespace Sys2Proof.Machine

/-- A start leaves the engine ready to loop, if `PROG_LEN` is legal. -/
theorem State.restart_looping {s : State} (hlen : s.inputs.progLen.toNat ≤ progMax) : s.restart.Looping :=
  ⟨s.restart_start, s.restart_phase, hlen⟩

theorem inputsOf_read_record (p : Program) (r : SyscallRecord) (a : Nat) :
    Memory.read (inputsOf p r).record a = r.image.getD a 0 :=
  (Memory.read_ofBytesAt r.image 0 a).trans (if_pos (Nat.zero_le a))

/-- Settles O13: what the loader answers has a legal length, and both memories are laid out from lists of bytes. -/
theorem bootedRunIsReady : Obligations.BootedRunIsReady := by
  intro c inv src qs p r hc hreqs hfile hload hbuild
  have hboot : boot c inv = .ok _ :=
    boot_eq_ok_iff.2 ⟨src, qs, p, r, Invocation.check_eq_ok_iff.2 ⟨hreqs, hfile⟩, hload, hbuild, rfl⟩
  obtain ⟨bytes, hfits, rfl⟩ := eq_programOf_of_loadProgram hload
  have hlen : (programOf bytes).len.toNat ≤ progMax := (programOf_len hfits).trans_le hfits
  exact ⟨_, hboot, State.restart_runInv hc ⟨Memory.ofBytesAt_wf 0 _, Memory.ofBytesAt_wf 0 _⟩,
    State.restart_looping hlen, rfl, rfl, rfl, rfl, rfl, rfl, inputsOf_read_record _ r⟩

end Sys2Proof.Machine

/-! A record put where the next step fetches it (log 17). -/

namespace Sys2Proof.Machine

section
variable (s : State) (w : Insn)

theorem length_recordBytes (o : ByteOrder) : (recordBytes o w).length = 8 := by cases o <;> rfl

theorem State.placeIndex_lt : s.placeIndex < 4096 := by
  rw [State.placeIndex]
  split
  · assumption
  · decide

/-- The length is legal and covers the index. -/
theorem State.placeLen_bounds : s.placeIndex < s.placeLen.toNat ∧ s.placeLen.toNat ≤ 4096 := by
  have hindex := s.placeIndex_lt
  rw [State.placeLen]
  split
  · rename_i hkept
    simp only [Bool.and_eq_true, progLenLegal_iff, decide_eq_true_eq] at hkept
    exact ⟨hkept.2, hkept.1⟩
  · have hlen : (BitVec.ofNat 13 (s.placeIndex + 1)).toNat = s.placeIndex + 1 :=
      (BitVec.toNat_ofNat _ _).trans (Nat.mod_eq_of_lt (by omega))
    omega

theorem State.placeRecord_ip : (s.placeRecord w).ip = s.placeIndex := rfl

theorem State.placeRecord_cfg : (s.placeRecord w).cfg = s.cfg := rfl

theorem State.placeRecord_looping : (s.placeRecord w).Looping := ⟨rfl, rfl, s.placeLen_bounds.2⟩

theorem State.placeRecord_ip_lt_progLen : (s.placeRecord w).ip < (s.placeRecord w).inputs.progLen.toNat :=
  s.placeLen_bounds.1

variable {s}

/-- The eight bytes of the record stand at the index, and every other byte of the program is as it was. -/
theorem State.placeRecord_read_prog (h : s.inputs.prog.wf = true) (a : Nat) :
    Memory.read (s.placeRecord w).inputs.prog a
      = if 8 * s.placeIndex ≤ a ∧ a < 8 * s.placeIndex + 8 then
          (recordBytes s.cfg.byteOrder w).getD (a - 8 * s.placeIndex) 0#8
        else Memory.read s.inputs.prog a := by
  have hread := Memory.read_writeBytes (recordBytes s.cfg.byteOrder w) s.inputs.prog (8 * s.placeIndex) a h
  rw [length_recordBytes] at hread
  exact hread

theorem State.placeRecord_progRead (h : s.inputs.prog.wf = true) :
    (s.placeRecord w).progRead s.placeIndex = w := by
  have hread (j : Nat) (hj : j < 8) : Memory.read (s.placeRecord w).inputs.prog (8 * s.placeIndex + j)
      = (recordBytes s.cfg.byteOrder w).getD (8 * s.placeIndex + j - 8 * s.placeIndex) 0#8 := by
    rw [s.placeRecord_read_prog w h, if_pos ⟨by omega, by omega⟩]
  rw [State.progRead_of_bytes
    (byteAt := fun a => (recordBytes s.cfg.byteOrder w).getD (a - 8 * s.placeIndex) 0#8) hread]
  obtain ⟨b0, b1, b2, b3, b4, b5, b6, b7, hbytes, hrecord⟩ := assembleRecord_recordBytes w s.cfg.byteOrder
  simpa [hbytes, Nat.add_sub_cancel_left, State.placeRecord_cfg] using hrecord

theorem State.placeRecord_fetched (h : s.inputs.prog.wf = true) :
    (s.placeRecord w).fetched = decodeWord s.cfg w := by
  rw [State.fetched, State.placeRecord_ip, State.placeRecord_progRead w h, State.placeRecord_cfg]

end

/-- Settles O14: the state with the record in place loops, and what it fetches is that record. -/
theorem placedRecordRunsNext : Obligations.PlacedRecordRunsNext := by
  intro s w hwf
  refine ⟨?_, rfl, rfl, fun a hout => ?_⟩
  · rw [step_of_ip_lt_progLen (s.placeRecord_looping w) (s.placeRecord_ip_lt_progLen w),
      State.placeRecord_fetched w hwf]
  · rw [State.placeRecord_ip] at hout
    rw [State.placeRecord_read_prog w hwf, if_neg (by omega)]

end Sys2Proof.Machine

/-! LDABS at a valid and at an invalid offset (41_load.md R90, R128). -/

namespace Sys2Proof.Machine

/-- Settles O29: a valid offset loads, and the byte is zero-extended. -/
theorem ldabsLoadsOneByte : Obligations.LdabsLoadsOneByte := fun s jt jf k hvalid =>
  ⟨_, exec_ldabs_of_lt_maxOff (s := s) hvalid jt jf, loadByte_toNat s k, rfl⟩

/-- Settles O30: an invalid offset ends the run, which writes the phase, the outcome and the three status codes. -/
theorem ldabsOutOfRangeEndsRun : Obligations.LdabsOutOfRangeEndsRun := fun s jt jf _ hinvalid =>
  ⟨_, exec_ldabs_of_maxOff_le (s := s) hinvalid jt jf, State.terminate_phase _ _, State.terminate_outcome _ _,
    State.terminate_out _ _, rfl⟩

end Sys2Proof.Machine

/-! Where JGT and JGE leave `ip`, in every state and at every width (42_jump.md R98, R99). -/

namespace Sys2Proof.Machine

section
variable {s : State} {cond : Bool}

theorem jump_chosenDistance_ip_of_true (h : cond = true) (jt jf : Byte) :
    (s.jump (chosenDistance s.cfg cond jt jf)).ip = (s.ip + jt.toNat) % 2 ^ s.cfg.ipBits := by
  rw [State.jump_ip, addIpBits_chosenDistance, if_pos h]

theorem jump_chosenDistance_ip_of_false (h : cond = false) (jt jf : Byte) :
    (s.jump (chosenDistance s.cfg cond jt jf)).ip = (s.ip + jf.toNat) % 2 ^ s.cfg.ipBits := by
  rw [State.jump_ip, addIpBits_chosenDistance, h]
  rfl

end

/-- Settles O35: one distance of the two is added, the one that JGT's condition `A < k` chooses. -/
theorem jgtHasConstantOnTheLeft : Obligations.JgtHasConstantOnTheLeft := fun s jt jf k =>
  ⟨s.jump (chosenDistance s.cfg (condGt s.acc k) jt jf), exec_of_jumpsBy rfl,
    fun hgt => jump_chosenDistance_ip_of_true (decide_eq_true hgt) jt jf,
    fun hle => jump_chosenDistance_ip_of_false (decide_eq_false (Nat.not_lt.2 hle)) jt jf, rfl⟩

/-- Settles O36: one distance of the two is added, the one that JGE's condition `A ≤ k` chooses. -/
theorem jgeHasConstantOnTheLeft : Obligations.JgeHasConstantOnTheLeft := fun s jt jf k =>
  ⟨s.jump (chosenDistance s.cfg (condGe s.acc k) jt jf), exec_of_jumpsBy rfl,
    fun hge => jump_chosenDistance_ip_of_true (decide_eq_true hge) jt jf,
    fun hlt => jump_chosenDistance_ip_of_false (decide_eq_false (Nat.not_le.2 hlt)) jt jf, rfl⟩

end Sys2Proof.Machine

/-! The outcome of each step of the loop (60_exceptions.md R134). -/

namespace Sys2Proof.Machine

/-- Settles O25: the phase follows the outcome because each step keeps both or writes both; the outcome is that of the
range test or of the one instruction that is dispatched. -/
theorem outcomeOfEachStep : Obligations.OutcomeOfEachStep := by
  intro s hl hnone
  obtain ⟨t, hstep⟩ := hl.step_answers_next
  refine ⟨t, hstep, ?_, fun hout => ?_, fun hin => ?_⟩
  · obtain ⟨-, ⟨hphase, hkept⟩ | ⟨hphase, hended⟩⟩ := hl.step_loops_or_ends hstep
    · simp [hphase, hkept, hnone]
    · exact iff_of_true hphase hended
  · rw [step_of_progLen_le_ip hl hout] at hstep
    rw [← Host.Outcome.next.inj hstep, State.rangeError_outcome]
  · rw [step_of_ip_lt_progLen hl hin] at hstep
    have hfetched : decodeWord s.cfg (s.progRead s.ip) = s.fetched := rfl
    rw [hfetched]
    generalize s.fetched = i at hstep ⊢
    have hjumped {d : Nat} (hjump : JumpsBy s.advance d i) : t.outcome = none := by
      rw [eq_jump_of_exec_jumpsBy hstep hjump, State.jump_outcome, State.advance_outcome, hnone]
    cases i with
    | ldabs jt jf k =>
      show t.outcome = if k.toNat < s.advance.maxOff then none else _
      split
      · rw [exec_ldabs_of_lt_maxOff ‹_›] at hstep
        rw [← Host.Outcome.next.inj hstep, State.setAcc_outcome, State.advance_outcome, hnone]
      · rw [exec_ldabs_of_maxOff_le (Nat.le_of_not_lt ‹_›)] at hstep
        rw [← Host.Outcome.next.inj hstep, State.terminate_outcome, State.advance_pos]
    | ja jt jf k => exact hjumped rfl
    | jeq jt jf k => exact hjumped rfl
    | jgt jt jf k => exact hjumped rfl
    | jge jt jf k => exact hjumped rfl
    | ret jt jf k =>
      rw [exec_ret] at hstep
      rw [← Host.Outcome.next.inj hstep, State.terminate_outcome, State.advance_pos]
      obtain ⟨d, hd, hcls⟩ | ⟨hundefined, hcls⟩ := classify_cases k s.ip
      · exact .inl ⟨d, hd, congrArg some hcls⟩
      · exact .inr ⟨hundefined, congrArg some hcls⟩
    | unsupported opc jt jf k =>
      rw [exec_unsupported] at hstep
      rw [← Host.Outcome.next.inj hstep, State.terminate_outcome]

end Sys2Proof.Machine

/-! A run without a wrapping JA moves forward at every step, and so ends (70_reset_and_hazards.md section 3). -/

namespace Sys2Proof.Machine

/-- No JA of the program reaches `2^IP_BITS` from where it stands. -/
def State.JaNeverWraps (s : State) : Prop :=
  ∀ (i : Nat) (jt jf : Byte) (k : Word), i < s.inputs.progLen.toNat →
    decodeWord s.cfg (s.progRead i) = .ja jt jf k → i + 1 + k.toNat % 2 ^ s.cfg.ipBits < 2 ^ s.cfg.ipBits

section
variable {s t : State}

/-- Whether a JA wraps is a matter of the inputs and the parameters, which no step writes. -/
theorem State.JaNeverWraps.step (h : s.JaNeverWraps) (hstep : step s = .next t) : t.JaNeverWraps := by
  obtain ⟨hinputs, hcfg, -⟩ := step_keeps_inputs_cfg_scratch hstep
  simp only [State.JaNeverWraps, State.progRead, hinputs, hcfg]
  exact h

theorem State.Looping.ip_lt_of_step (hl : s.Looping) (hwidth : 13 ≤ s.cfg.ipBits) (hja : s.JaNeverWraps)
    (hip : s.ip < s.inputs.progLen.toNat) (hstep : step s = .next t) : s.ip < t.ip := by
  obtain ⟨t', hstep', -, hnext⟩ := advanceComesBeforeDispatch s hwidth hl hip
  obtain rfl : t' = t := Host.Outcome.next.inj (hstep'.symm.trans hstep)
  cases hdec : decodeWord s.cfg (s.progRead s.ip) with
  | ja jt jf k =>
    have hfits := hja s.ip jt jf k hip hdec
    simp only [hdec] at hnext
    rw [hnext, ← Nat.add_mod_mod, Nat.mod_eq_of_lt hfits]
    omega
  | _ =>
    simp only [hdec] at hnext
    omega

/-- A step of the loop is the last one of the run or leads to a state of the loop with a higher `ip`. -/
theorem State.Looping.step_ends_or_advances (hl : s.Looping) (hwidth : 13 ≤ s.cfg.ipBits) (hja : s.JaNeverWraps) :
    ∃ t, step s = .next t ∧ ((t.phase = .halt ∧ t.outcome ≠ none) ∨
      (t.Looping ∧ t.inputs = s.inputs ∧ t.cfg = s.cfg ∧ s.ip < t.ip)) := by
  by_cases hip : s.ip < s.inputs.progLen.toNat
  · obtain ⟨t, hstep⟩ := hl.step_answers_next
    refine ⟨t, hstep, ?_⟩
    obtain ⟨hstart, ⟨hrun, -⟩ | hended⟩ := hl.step_loops_or_ends hstep
    · obtain ⟨hinputs, hcfg, -⟩ := step_keeps_inputs_cfg_scratch hstep
      exact .inr ⟨⟨hstart, hrun, hinputs ▸ hl.lenLegal⟩, hinputs, hcfg, hl.ip_lt_of_step hwidth hja hip hstep⟩
    · exact .inl hended
  · exact ⟨_, step_of_progLen_le_ip hl (Nat.le_of_not_lt hip), .inl ⟨s.rangeError_phase, Option.some_ne_none _⟩⟩

/-- From `ip` on there are at most `PROG_LEN - ip` instructions to run, and one failed range test. -/
theorem State.Looping.run_ends {m : Nat} (hl : s.Looping) (hwidth : 13 ≤ s.cfg.ipBits) (hja : s.JaNeverWraps)
    (hm : s.inputs.progLen.toNat ≤ s.ip + m) :
    ∃ (n : Nat) (t : State), n ≤ m + 1 ∧ Host.Core.run core n s = .next t ∧ t.phase = .halt ∧ t.outcome ≠ none := by
  induction m generalizing s with
  | zero =>
    refine ⟨1, s.rangeError, Nat.le_refl _, ?_, s.rangeError_phase, Option.some_ne_none _⟩
    exact run_succ_of_next (step_of_progLen_le_ip hl hm) 0
  | succ m ih =>
    obtain ⟨t, hstep, ⟨hhalt, hended⟩ | ⟨hl', hinputs, hcfg, hip⟩⟩ := hl.step_ends_or_advances hwidth hja
    · exact ⟨1, t, by omega, run_succ_of_next hstep 0, hhalt, hended⟩
    · obtain ⟨n, u, hn, hrun, hend⟩ := ih hl' (hcfg ▸ hwidth) (hja.step hstep) (by rw [hinputs]; omega)
      exact ⟨n + 1, u, by omega, (run_succ_of_next hstep n).trans hrun, hend⟩

end

/-- Settles O27: `ip` rises with every step, from 0 at the least, until the run ends or `ip` is beyond the program. -/
theorem noWrappingJaMeansTermination : Obligations.NoWrappingJaMeansTermination := fun s hwidth hl hja =>
  hl.run_ends hwidth hja (Nat.le_add_left _ s.ip)

end Sys2Proof.Machine

/-! Fields that an instruction does not use (30_encoding.md R67, D14). -/

namespace Sys2Proof.Machine

section
variable {c : Config} {w : Insn} {s : State}

/-- For legal parameters the opcode and the other fields of a record determine the instruction. -/
theorem decodeWord_eq_of_fields (hc : c.wf = true) {i : Instr} (hi : i.wf c = true) (hopc : opcOf w = i.opcode c)
    (hjt : jtOf w = i.jtField) (hjf : jfOf w = i.jfField) (hk : kOf w = i.kField) : decodeWord c w = i := by
  have henc : encode c i = w := by rw [encode, ← hopc, ← hjt, ← hjf, ← hk, mkRecord_fields]
  rw [← henc, decodeWord_encode hc hi]

/-! ## An instruction that looks at `k` alone runs as it is assembled, with `jt` and `jf` 0 -/

theorem exec_decodeWord_of_opcLdabs (hc : c.wf = true) (h : opcOf w = c.opcLdabs) :
    exec (decodeWord c w) s = exec (.ldabs 0 0 (kOf w)) s := by
  rw [decodeWord_eq_of_fields hc (i := .ldabs (jtOf w) (jfOf w) (kOf w)) rfl h rfl rfl rfl]
  rfl

theorem exec_decodeWord_of_opcJa (hc : c.wf = true) (h : opcOf w = c.opcJa) :
    exec (decodeWord c w) s = exec (.ja 0 0 (kOf w)) s := by
  rw [decodeWord_eq_of_fields hc (i := .ja (jtOf w) (jfOf w) (kOf w)) rfl h rfl rfl rfl]
  rfl

theorem exec_decodeWord_of_opcRet (hc : c.wf = true) (h : opcOf w = c.opcRet) :
    exec (decodeWord c w) s = exec (.ret 0 0 (kOf w)) s := by
  rw [decodeWord_eq_of_fields hc (i := .ret (jtOf w) (jfOf w) (kOf w)) rfl h rfl rfl rfl]
  rfl

theorem exec_decodeWord_of_opcOf_not_mem (hfree : opcOf w ∉ c.opcodes) :
    exec (decodeWord c w) s = .next (s.terminate (.fault .notImplemented)) := by
  rw [decodeWord_of_opcOf_not_mem hfree, exec_unsupported]

end

/-- Settles O47: both records run as the same instruction, whose other fields are 0. -/
theorem unusedFieldsAreIgnored : Obligations.UnusedFieldsAreIgnored := by
  intro c s w w' hopc
  refine ⟨fun hselected hc hk => ?_, fun hfree => ?_⟩
  · obtain h | h | h := hselected
    · rw [exec_decodeWord_of_opcLdabs hc h, exec_decodeWord_of_opcLdabs hc (hopc.trans h), hk]
    · rw [exec_decodeWord_of_opcJa hc h, exec_decodeWord_of_opcJa hc (hopc.trans h), hk]
    · rw [exec_decodeWord_of_opcRet hc h, exec_decodeWord_of_opcRet hc (hopc.trans h), hk]
  · rw [exec_decodeWord_of_opcOf_not_mem hfree, exec_decodeWord_of_opcOf_not_mem (hopc ▸ hfree)]

end Sys2Proof.Machine

/-! The frame of every instruction (10_state.md section 2; 60_exceptions.md R135). -/

namespace Sys2Proof.Machine

section
variable {i : Instr} {s t : State}

theorem mnemonic_mem_jumps_iff (s : State) (i : Instr) :
    i.mnemonic ∈ ["JA", "JEQ", "JGT", "JGE"] ↔ ∃ d, JumpsBy s d i := by
  cases i with
  | ja jt jf k => exact iff_of_true (by simp [Instr.mnemonic]) ⟨_, rfl⟩
  | jeq jt jf k => exact iff_of_true (by simp [Instr.mnemonic]) ⟨_, rfl⟩
  | jgt jt jf k => exact iff_of_true (by simp [Instr.mnemonic]) ⟨_, rfl⟩
  | jge jt jf k => exact iff_of_true (by simp [Instr.mnemonic]) ⟨_, rfl⟩
  | _ => exact iff_of_false (by simp [Instr.mnemonic]) fun ⟨_, hjump⟩ => hjump

/-- `ACTION` and `ERRNO` are written by RET alone (43_return_and_action.md R105). -/
theorem exec_keeps_action (hexec : exec i s = .next t) (hno : i.mnemonic ≠ "RET") :
    t.out.action = s.out.action ∧ t.out.errno = s.out.errno := by
  obtain ⟨_, _, _, -, -, rfl⟩ | ⟨_, _, _, -, -, rfl⟩ | ⟨_, -, rfl⟩ | ⟨_, _, _, rfl, -⟩ | ⟨_, _, _, _, -, rfl⟩ :=
    exec_cases hexec
  · exact ⟨rfl, rfl⟩
  · exact ⟨rfl, rfl⟩
  · exact ⟨rfl, rfl⟩
  · exact absurd rfl hno
  · exact ⟨rfl, rfl⟩

/-- A load that changes `A` does not end the run. -/
theorem exec_keeps_run_of_acc_ne (hexec : exec i s = .next t) (hne : t.acc ≠ s.acc) :
    t.phase = s.phase ∧ t.outcome = s.outcome ∧ t.out = s.out := by
  obtain ⟨jt, jf, k, rfl, hvalid, -⟩ := accWrittenOnlyByLoad i s t hexec hne
  rw [exec_ldabs_of_lt_maxOff hvalid] at hexec
  rw [← Host.Outcome.next.inj hexec]
  exact ⟨State.setAcc_phase _ _, State.setAcc_outcome _ _, State.setAcc_out _ _⟩

theorem exec_acc_of_not_ldabs (hexec : exec i s = .next t) (hno : i.mnemonic ≠ "LDABS") : t.acc = s.acc := by
  obtain hkept | ⟨_, _, _, rfl, -⟩ := exec_acc_cases hexec
  · exact hkept
  · exact absurd rfl hno

end

/-- Settles O48: each clause is what one lemma says an instruction keeps; the bytes of both memories are among the
inputs. -/
theorem frameOfEveryInstruction : Obligations.FrameOfEveryInstruction := by
  intro i s t hexec
  obtain ⟨hinputs, hcfg, hscratch⟩ := exec_keeps_inputs_cfg_scratch hexec
  refine ⟨exec_pos hexec, hscratch, hinputs, hcfg, exec_start hexec, fun a => by rw [hinputs]; exact ⟨rfl, rfl⟩,
    exec_acc_of_not_ldabs hexec, fun hno => ?_, fun hmem => ?_, exec_keeps_run_of_acc_ne hexec, exec_keeps_action hexec⟩
  · rw [mnemonic_mem_jumps_iff s, not_exists] at hno
    exact exec_ip_of_not_jumpsBy hexec hno
  · obtain ⟨d, hjump⟩ := (mnemonic_mem_jumps_iff s i).1 hmem
    rw [eq_jump_of_exec_jumpsBy hexec hjump]
    exact ⟨State.jump_phase _ _, State.jump_outcome _ _, State.jump_out _ _⟩

end Sys2Proof.Machine

/-! The report and the exit code, by the class of the outcome (60_exceptions.md R141 to R143). -/

namespace Sys2Proof.Machine

section
variable (o : RunOutcome)

theorem exitCode_eq_zero_iff {c : Config} (hfault : c.exitFault ≠ 0) (herror : c.exitError ≠ 0) :
    exitCode c o = 0 ↔ ∃ a d, o = .ok a d := by
  cases o with
  | ok a d => exact iff_of_true rfl ⟨a, d, rfl⟩
  | programError e p => exact iff_of_false herror (by simp)
  | fault f => exact iff_of_false hfault (by simp)

theorem RunOutcome.tag_eq_fault_iff : o.tag = .fault ↔ ∃ f, o = .fault f := by
  cases o with
  | ok a d => cases d <;> simp [RunOutcome.tag]
  | programError e p => simp [RunOutcome.tag]
  | fault f => exact iff_of_true rfl ⟨f, rfl⟩

theorem RunOutcome.tag_eq_error_iff : o.tag = .error ↔ ∃ e p, o = .programError e p := by
  cases o with
  | ok a d => cases d <;> simp [RunOutcome.tag]
  | programError e p => exact iff_of_true rfl ⟨e, p, rfl⟩
  | fault f => simp [RunOutcome.tag]

theorem RunOutcome.reportPos_eq_some_iff {p : Nat} : o.reportPos = some p ↔ ∃ e, o = .programError e p := by
  cases o with
  | ok a d => simp [RunOutcome.reportPos]
  | programError e q => simp [RunOutcome.reportPos]
  | fault f => simp [RunOutcome.reportPos]

theorem RunOutcome.reportCause_eq_none_iff : o.reportCause = none ↔ ∃ a d, o = .ok a d := by
  cases o with
  | ok a d => exact iff_of_true rfl ⟨a, d, rfl⟩
  | programError e p => simp [RunOutcome.reportCause]
  | fault f => simp [RunOutcome.reportCause]

end

/-- Settles O49: each part of the report is a function of the class; verbosity shows or hides the index and
the cause. -/
theorem reportFollowsOutcome : Obligations.ReportFollowsOutcome := by
  intro c o
  refine ⟨?_, ?_, exitCode_eq_zero_iff o, fun _ _ => rfl, fun _ => o.tag_eq_fault_iff, fun _ => o.tag_eq_error_iff,
    fun v p => ?_, fun v => ?_⟩
  · rintro f rfl
    rfl
  · rintro e p rfl
    rfl
  · cases v with
    | false => simp [report]
    | true => simpa [report] using o.reportPos_eq_some_iff
  · cases v with
    | false => simp [report]
    | true => simpa [report] using o.reportCause_eq_none_iff

end Sys2Proof.Machine

/-! Records written out in the spec (95_test_vectors.md). -/

namespace Sys2Proof

/-- The host's window shows what the decoder makes of the record. -/
theorem decodeTableWord_eq (w : Nat) :
    decodeTableWord 64 w = some (decodeWord defaultConfig (BitVec.ofNat 64 (w % 2 ^ 64))) := by
  have hdec := decodeBytes_recordBytes_append defaultConfig (BitVec.ofNat 64 (w % 2 ^ 64)) []
  rw [List.append_nil] at hdec
  rw [decodeTableWord, hdec]

/-- Settles O5: each record is decoded by comparing its opcode with the default ones. -/
theorem specRecordsDecode : Obligations.SpecRecordsDecode := by
  unfold Obligations.SpecRecordsDecode
  simp only [decodeTableWord_eq]
  decide

end Sys2Proof
